-- ==== Sys2Proof/Word.lean ====
section
/-! DEFINITION. The byte and the eight register names: the vocabulary every other file shares. -/

namespace Sys2Proof

/-- A byte: every register, memory cell, flag value and operand byte is 8 bits wide, unsigned (R6, R8). -/
abbrev Byte := BitVec 8

/-- The eight general registers R0 to R7 (R21). R7 is the stack pointer (R23), R6 and R5 are the interrupt status
and the interrupt mask by convention only (R24). -/
inductive Reg where
  | r0 | r1 | r2 | r3 | r4 | r5 | r6 | r7
deriving DecidableEq, Repr

end Sys2Proof
end

