-- ==== Sys2Proof/Syntax.lean ====
section
/-! DEFINITION. The instructions: one constructor per row of spec/opcode_table.json (R76), in the table's order. -/

namespace Sys2Proof

/-- An instruction whose register operands have passed the index check of R107 (log entry 21): `a` is the first operand
(`opA`), `b` the second (`opB`), `imm` the immediate of LDI (R74). -/
inductive Instr where
  /-- R201: no operation. -/
  | nop
  /-- R200: stop execution. -/
  | hlt
  /-- R190: return from subroutine. -/
  | ret
  /-- R205: return from interrupt. -/
  | iret
  /-- R165: push register `a`. -/
  | push (a : Reg)
  /-- R166: pop into register `a`. -/
  | pop (a : Reg)
  /-- R202: print register `a` as a decimal line. -/
  | prn (a : Reg)
  /-- R203: print register `a` as a character. -/
  | pra (a : Reg)
  /-- R189: call the subroutine at the address in `a`. -/
  | call (a : Reg)
  /-- R204: raise the software interrupt whose number is in `a`. -/
  | int (a : Reg)
  /-- R182: jump to the address in `a`. -/
  | jmp (a : Reg)
  /-- R183: jump if equal. -/
  | jeq (a : Reg)
  /-- R184: jump if not equal. -/
  | jne (a : Reg)
  /-- R185: jump if greater. -/
  | jgt (a : Reg)
  /-- R187: jump if less. -/
  | jlt (a : Reg)
  /-- R188: jump if less or equal. -/
  | jle (a : Reg)
  /-- R186: jump if greater or equal. -/
  | jge (a : Reg)
  /-- R138: increment `a`. -/
  | inc (a : Reg)
  /-- R139: decrement `a`. -/
  | dec (a : Reg)
  /-- R143: complement `a`. -/
  | not (a : Reg)
  /-- R162: load the immediate into `a`. -/
  | ldi (a : Reg) (imm : Byte)
  /-- R163: load `a` from the address in `b`. -/
  | ld (a b : Reg)
  /-- R164: store `b` at the address in `a`. -/
  | st (a b : Reg)
  /-- R133: add. -/
  | add (a b : Reg)
  /-- R134: subtract. -/
  | sub (a b : Reg)
  /-- R135: multiply. -/
  | mul (a b : Reg)
  /-- R136: divide. -/
  | div (a b : Reg)
  /-- R137: remainder. -/
  | mod (a b : Reg)
  /-- R146: compare. -/
  | cmp (a b : Reg)
  /-- R140: bitwise and. -/
  | and (a b : Reg)
  /-- R141: bitwise or. -/
  | or (a b : Reg)
  /-- R142: bitwise exclusive or. -/
  | xor (a b : Reg)
  /-- R144: shift `a` left by the count in `b`. -/
  | shl (a b : Reg)
  /-- R145: shift `a` right by the count in `b`. -/
  | shr (a b : Reg)
deriving DecidableEq, Repr

end Sys2Proof
end

