-- ==== Sys2Proof/WellFormed.lean ====
section
/-! DEFINITION. What the dispatch finds before the register index check: a mnemonic and two operand bytes (`Raw`), and the
check itself (R77, R107). A term of `Instr` has passed it; a `Raw` term may be ill-formed in its first or in its second slot. -/

namespace Sys2Proof

/-- The 34 mnemonics of the dispatch table (R76), in the table's order. -/
inductive Op where
  | nop | hlt | ret | iret
  | push | pop | prn | pra | call | int | jmp | jeq | jne | jgt | jlt | jle | jge | inc | dec | not
  | ldi | ld | st | add | sub | mul | div | mod | cmp | and | or | xor | shl | shr
deriving DecidableEq, Repr

/-- What an operand slot of a mnemonic is: a register index, an immediate, or no operand (`R`, `I`, `-` of R77). -/
inductive Slot where
  | reg | imm | unused
deriving DecidableEq, Repr

/-- The kind of the first operand slot of each mnemonic (R77). -/
def Op.slotA : Op → Slot
  | .nop | .hlt | .ret | .iret => .unused
  | .push | .pop | .prn | .pra | .call | .int | .jmp | .jeq | .jne | .jgt | .jlt | .jle | .jge
  | .inc | .dec | .not | .ldi | .ld | .st | .add | .sub | .mul | .div | .mod | .cmp
  | .and | .or | .xor | .shl | .shr => .reg

/-- The kind of the second operand slot of each mnemonic (R77). -/
def Op.slotB : Op → Slot
  | .nop | .hlt | .ret | .iret | .push | .pop | .prn | .pra | .call | .int | .jmp | .jeq | .jne
  | .jgt | .jlt | .jle | .jge | .inc | .dec | .not => .unused
  | .ldi => .imm
  | .ld | .st | .add | .sub | .mul | .div | .mod | .cmp | .and | .or | .xor | .shl | .shr => .reg

/-- Whether an operand byte may stand in a slot: a register slot takes 0 to 7, the other slots take every byte
(R73, R74, R81). -/
def Slot.accepts : Slot → Byte → Bool
  | .reg, v => v.toNat < 8
  | .imm, _ => true
  | .unused, _ => true

/-- What the dispatch hands on: the mnemonic and the two fetched operand bytes, not yet checked. -/
structure Raw where
  op : Op
  opA : Byte
  opB : Byte
deriving DecidableEq, Repr

/-- The first operand byte that is no register index where one must stand: slot A first, then slot B (R107, R230). -/
def Raw.badIndex? (r : Raw) : Option Byte :=
  if r.op.slotA.accepts r.opA then
    if r.op.slotB.accepts r.opB then none else some r.opB
  else some r.opA

/-- A dispatched instruction is well-formed when both its operand bytes fit their slots (R73, R107). -/
abbrev Raw.WellFormed (r : Raw) : Prop := r.badIndex? = none

end Sys2Proof
end

