-- ==== Sys2Proof/Decode.lean ====
section
/-! DEFINITION. The opcode map, the decoder (lookup, index check) and the encoder (30_encoding.md). -/

namespace Sys2Proof

/-- The three bytes a cycle fetches: the opcode at `pc`, and the bytes at `pc + 1` and `pc + 2` (R54, R102, R103). -/
structure Window where
  ir : Byte
  opA : Byte
  opB : Byte
deriving DecidableEq, Repr

/-- Why three fetched bytes are no instruction. -/
inductive DecodeError where
  /-- The opcode byte is not in the dispatch table (R78, R106). -/
  | undefinedOpcode (ir : Byte)
  /-- An operand byte used as a register index is above 7 (R73, R107). -/
  | invalidRegisterIndex (operand : Byte)
deriving DecidableEq, Repr

/-- All mnemonics, in the table's order (R76). -/
def Op.all : List Op :=
  [.nop, .hlt, .ret, .iret,
   .push, .pop, .prn, .pra, .call, .int, .jmp, .jeq, .jne, .jgt, .jlt, .jle, .jge, .inc, .dec, .not,
   .ldi, .ld, .st, .add, .sub, .mul, .div, .mod, .cmp, .and, .or, .xor, .shl, .shr]

/-- `OPCODE_MAP`, its default values (R7, R76). PRESUMED (log entry 1): the spec takes the numbers from general
knowledge of the public LS-8. -/
def Op.opcode : Op → Byte
  | .nop => 0x00
  | .hlt => 0x01
  | .ret => 0x11
  | .iret => 0x13
  | .push => 0x45
  | .pop => 0x46
  | .prn => 0x47
  | .pra => 0x48
  | .call => 0x50
  | .int => 0x52
  | .jmp => 0x54
  | .jeq => 0x55
  | .jne => 0x56
  | .jgt => 0x57
  | .jlt => 0x58
  | .jle => 0x59
  | .jge => 0x5A
  | .inc => 0x65
  | .dec => 0x66
  | .not => 0x69
  | .ldi => 0x82
  | .ld => 0x83
  | .st => 0x84
  | .add => 0xA0
  | .sub => 0xA1
  | .mul => 0xA2
  | .div => 0xA3
  | .mod => 0xA4
  | .cmp => 0xA7
  | .and => 0xA8
  | .or => 0xAA
  | .xor => 0xAB
  | .shl => 0xAC
  | .shr => 0xAD

/-- The operand count of an opcode byte, its bits 7:6 (R72). -/
def operandCountOf (ir : Byte) : Nat := (ir >>> 6).toNat

/-- The operand count of a mnemonic as the source's table gives it: the number of its operand slots (R76, R77). -/
def Op.operandCount (op : Op) : Nat :=
  (if op.slotA = .unused then 0 else 1) + (if op.slotB = .unused then 0 else 1)

/-- The control-transfer set, by mnemonic (R110). -/
def Op.setsPc : Op → Bool
  | .call | .ret | .iret | .jmp | .jeq | .jne | .jgt | .jge | .jlt | .jle => true
  | .nop | .hlt | .push | .pop | .prn | .pra | .int | .inc | .dec | .not | .ldi | .ld | .st
  | .add | .sub | .mul | .div | .mod | .cmp | .and | .or | .xor | .shl | .shr => false

/-- What R75 asks of any opcode map: different bytes for different mnemonics, and bits 7:6 equal to the operand count. -/
def OpcodeMapOk (m : Op → Byte) : Prop :=
  (∀ p q, m p = m q → p = q) ∧ ∀ op, operandCountOf (m op) = op.operandCount

/-- The dispatch lookup over an opcode map: all 8 bits are matched (R76, R105). -/
def lookupWith (m : Op → Byte) (ir : Byte) : Option Op :=
  Op.all.find? fun op => m op == ir

/-- The dispatch lookup of this hardware (R105, R117). -/
def lookup (ir : Byte) : Option Op := lookupWith Op.opcode ir

/-- The register a well-formed operand byte names: the whole byte is the index (R73). -/
def Reg.ofByte? (v : Byte) : Option Reg :=
  match v.toNat with
  | 0 => some .r0
  | 1 => some .r1
  | 2 => some .r2
  | 3 => some .r3
  | 4 => some .r4
  | 5 => some .r5
  | 6 => some .r6
  | 7 => some .r7
  | _ => none

/-- The operand byte of a register (R73). -/
def Reg.toByte : Reg → Byte
  | .r0 => 0 | .r1 => 1 | .r2 => 2 | .r3 => 3 | .r4 => 4 | .r5 => 5 | .r6 => 6 | .r7 => 7

/-- The index check of one operand byte (R107). -/
def regOperand (v : Byte) : Except DecodeError Reg :=
  match Reg.ofByte? v with
  | some r => .ok r
  | none => .error (.invalidRegisterIndex v)

/-- Format F1 with a register operand (R77). -/
def oneReg (mk : Reg → Instr) (opA : Byte) : Except DecodeError Instr :=
  match regOperand opA with
  | .ok a => .ok (mk a)
  | .error e => .error e

/-- Format F2 with two register operands, the first checked first (R77, R107). -/
def twoRegs (mk : Reg → Reg → Instr) (opA opB : Byte) : Except DecodeError Instr :=
  match regOperand opA with
  | .error e => .error e
  | .ok a =>
    match regOperand opB with
    | .ok b => .ok (mk a b)
    | .error e => .error e

/-- The index check of a dispatched instruction, slot by slot, and the instruction it yields (R77, R107). -/
def assemble (r : Raw) : Except DecodeError Instr :=
  match r.op with
  | .nop => .ok .nop
  | .hlt => .ok .hlt
  | .ret => .ok .ret
  | .iret => .ok .iret
  | .push => oneReg .push r.opA
  | .pop => oneReg .pop r.opA
  | .prn => oneReg .prn r.opA
  | .pra => oneReg .pra r.opA
  | .call => oneReg .call r.opA
  | .int => oneReg .int r.opA
  | .jmp => oneReg .jmp r.opA
  | .jeq => oneReg .jeq r.opA
  | .jne => oneReg .jne r.opA
  | .jgt => oneReg .jgt r.opA
  | .jlt => oneReg .jlt r.opA
  | .jle => oneReg .jle r.opA
  | .jge => oneReg .jge r.opA
  | .inc => oneReg .inc r.opA
  | .dec => oneReg .dec r.opA
  | .not => oneReg .not r.opA
  | .ldi => oneReg (fun a => .ldi a r.opB) r.opA
  | .ld => twoRegs .ld r.opA r.opB
  | .st => twoRegs .st r.opA r.opB
  | .add => twoRegs .add r.opA r.opB
  | .sub => twoRegs .sub r.opA r.opB
  | .mul => twoRegs .mul r.opA r.opB
  | .div => twoRegs .div r.opA r.opB
  | .mod => twoRegs .mod r.opA r.opB
  | .cmp => twoRegs .cmp r.opA r.opB
  | .and => twoRegs .and r.opA r.opB
  | .or => twoRegs .or r.opA r.opB
  | .xor => twoRegs .xor r.opA r.opB
  | .shl => twoRegs .shl r.opA r.opB
  | .shr => twoRegs .shr r.opA r.opB

/-- The decoder over any opcode map: lookup, then the index check (R105, R106, R107). -/
def decodeWith (m : Op → Byte) (w : Window) : Except DecodeError Instr :=
  match lookupWith m w.ir with
  | none => .error (.undefinedOpcode w.ir)
  | some op => assemble ⟨op, w.opA, w.opB⟩

/-- The decoder of this hardware: total on any three bytes, refusing by name (R105 to R107). -/
def decode (w : Window) : Except DecodeError Instr := decodeWith Op.opcode w

/-- The mnemonic of an instruction and its operand bytes; a slot with no operand holds 0 (R77). -/
def Instr.toRaw : Instr → Raw
  | .nop => ⟨.nop, 0, 0⟩
  | .hlt => ⟨.hlt, 0, 0⟩
  | .ret => ⟨.ret, 0, 0⟩
  | .iret => ⟨.iret, 0, 0⟩
  | .push a => ⟨.push, a.toByte, 0⟩
  | .pop a => ⟨.pop, a.toByte, 0⟩
  | .prn a => ⟨.prn, a.toByte, 0⟩
  | .pra a => ⟨.pra, a.toByte, 0⟩
  | .call a => ⟨.call, a.toByte, 0⟩
  | .int a => ⟨.int, a.toByte, 0⟩
  | .jmp a => ⟨.jmp, a.toByte, 0⟩
  | .jeq a => ⟨.jeq, a.toByte, 0⟩
  | .jne a => ⟨.jne, a.toByte, 0⟩
  | .jgt a => ⟨.jgt, a.toByte, 0⟩
  | .jlt a => ⟨.jlt, a.toByte, 0⟩
  | .jle a => ⟨.jle, a.toByte, 0⟩
  | .jge a => ⟨.jge, a.toByte, 0⟩
  | .inc a => ⟨.inc, a.toByte, 0⟩
  | .dec a => ⟨.dec, a.toByte, 0⟩
  | .not a => ⟨.not, a.toByte, 0⟩
  | .ldi a imm => ⟨.ldi, a.toByte, imm⟩
  | .ld a b => ⟨.ld, a.toByte, b.toByte⟩
  | .st a b => ⟨.st, a.toByte, b.toByte⟩
  | .add a b => ⟨.add, a.toByte, b.toByte⟩
  | .sub a b => ⟨.sub, a.toByte, b.toByte⟩
  | .mul a b => ⟨.mul, a.toByte, b.toByte⟩
  | .div a b => ⟨.div, a.toByte, b.toByte⟩
  | .mod a b => ⟨.mod, a.toByte, b.toByte⟩
  | .cmp a b => ⟨.cmp, a.toByte, b.toByte⟩
  | .and a b => ⟨.and, a.toByte, b.toByte⟩
  | .or a b => ⟨.or, a.toByte, b.toByte⟩
  | .xor a b => ⟨.xor, a.toByte, b.toByte⟩
  | .shl a b => ⟨.shl, a.toByte, b.toByte⟩
  | .shr a b => ⟨.shr, a.toByte, b.toByte⟩

/-- The mnemonic of an instruction. -/
def Instr.op (i : Instr) : Op := i.toRaw.op

/-- An instruction is well-formed when its operand bytes fit their slots; every term of `Instr` is (log entry 21). -/
abbrev Instr.WellFormed (i : Instr) : Prop := i.toRaw.WellFormed

/-- The bytes of an instruction over an opcode map, first byte at the lowest address (R54, R70). -/
def encodeWith (m : Op → Byte) (i : Instr) : List Byte :=
  [m i.op, i.toRaw.opA, i.toRaw.opB].take (1 + i.op.operandCount)

/-- The bytes of an instruction of this hardware: 1, 2 or 3 of them (R70, R76). -/
def encode (i : Instr) : List Byte := encodeWith Op.opcode i

/-- The window a fetch sees when these bytes stand at `pc`; the bytes an instruction does not have are read all the same
(R103), so a list shorter than three gives no window. -/
def Window.ofBytes? : List Byte → Option Window
  | ir :: opA :: opB :: _ => some ⟨ir, opA, opB⟩
  | _ => none

/-- The three bytes of a window in ascending address order (R54). -/
def Window.bytes (w : Window) : List Byte := [w.ir, w.opA, w.opB]

/-- Byte `k` of an instruction numbered as spec/opcode_table.json numbers its bits: bit 0 is the least significant bit of
the first byte; every bit from `nbits` on is 0. -/
def tableByte (nbits w k : Nat) : Byte := BitVec.ofNat 8 (w % 2 ^ nbits / 2 ^ (8 * k))

/-- The three bytes that such a numbered word puts at `pc`, `pc + 1` and `pc + 2`. -/
def tableWindow (nbits w : Nat) : Window :=
  ⟨tableByte nbits w 0, tableByte nbits w 1, tableByte nbits w 2⟩

/-- The instruction the decoder reads from a word numbered as spec/opcode_table.json numbers its bits. -/
def decodeTableWord (nbits w : Nat) : Option Instr :=
  match decode (tableWindow nbits w) with
  | .ok i => some i
  | .error _ => none

end Sys2Proof
end

