-- ==== Sys2Proof/Config.lean ====
section
/-! DEFINITION. What the hardware fixes (R6) and the one value the spec leaves open. The parameters of R7 that have a
default value (`OPCODE_MAP`, `SP_RESET`, `MEM_INIT`, `REG_INIT`, `FL_INIT`) stand in Decode.lean and Machine/ResetParams.lean. -/

namespace Sys2Proof

/-- `MEM_SIZE`, the number of memory cells: valid addresses are 0 to 255 (R6, R50). -/
def Config.memSize : Nat := 256

/-- Free value (log entry 19): the character PRA prints for a code of 128 to 255, which the spec leaves open (R203, U9).
It has no body, so nothing can be proved about which character it is. -/
opaque Config.glyph : Byte → Char

end Sys2Proof
end

