-- ==== Sys2Proof/Machine/ResetParams.lean ====
section
/-! DEFINITION. The reset parameters of R7, at the defaults the spec uses. They stand in a file of their own because the
source states none of them consistently: a run on real hardware could show another value. -/

namespace Sys2Proof

/-- `MEM_INIT`: what a cell that neither the image nor a store has written reads as (R7, R51, R66).
DESIGN CHOICE, unsafe (log entry 4): decision D8, the source gives none. -/
def Config.memInit : Byte := 0x00

/-- `REG_INIT`: the value of R0 to R6 after reset (R7, R39). DESIGN CHOICE, unsafe (log entry 3): decision D7. -/
def Config.regInit : Byte := 0x00

/-- `SP_RESET`: the value of R7 after reset (R7, R39). DESIGN CHOICE, unsafe (log entry 2): conflict C1 takes the source's
literal 0xF0 over its "244". -/
def Config.spReset : Byte := 0xF0

/-- `FL_INIT`: the value of FL after reset (R7, R39). DESIGN CHOICE, unsafe (log entry 3): decision D7. -/
def Config.flInit : Byte := 0x00

end Sys2Proof
end

