-- ==== Sys2Proof/Machine/State.lean ====
section
/-! DEFINITION. The machine's whole state (R20), plain data, and its value after reset (R39). -/

namespace Sys2Proof.Machine

/-- The seven error kinds of R220 with the info values of R228. A cycle that raises one latches it in `State.fault`. -/
inductive ErrorKind where
  /-- R221: raised by a fetch outside 0 to 255; the info is the first address out of range. -/
  | outOfRangeMemoryAccess (addr : Nat)
  /-- R222: raised by the index check; the info is the offending operand byte. -/
  | invalidRegisterIndex (operand : Byte)
  /-- R223: raised by the dispatch; the info is the opcode byte. -/
  | undefinedOpcode (ir : Byte)
  /-- R224: an operation name outside the ALU's fourteen; unreachable, as the dispatch table is closed (R148). -/
  | unsupportedAluOperation
  /-- R225: raised by DIV and MOD with a zero divisor. -/
  | divisionByZero
  /-- R226: the result of a load whose image does not fit; no cycle raises it. -/
  | programTooLarge
  /-- R227: belongs to the external loader; the core never raises it. -/
  | fileNotFound
deriving DecidableEq, Repr

/-- An output event (R33): `dec v` from PRN (R202), `chr v` from PRA (R203). -/
inductive OutEvent where
  | dec (v : Byte)
  | chr (v : Byte)
deriving DecidableEq, Repr

/-- The register file: eight 8-bit registers in one bank (R21). -/
structure Regs where
  r0 : Byte
  r1 : Byte
  r2 : Byte
  r3 : Byte
  r4 : Byte
  r5 : Byte
  r6 : Byte
  r7 : Byte
deriving DecidableEq, Repr

/-- Memory as the cells that differ from `Config.memInit`, by rising address (R36, R50); the form is `Memory.wf`. -/
abbrev Memory := List Host.Cell

/-- The state tuple of R20, "and nothing else". -/
structure State where
  /-- The 256 memory cells (R36). -/
  mem : Memory
  /-- The general registers (R21). -/
  regs : Regs
  /-- The program counter, an integer that does not wrap (R26; log entry 7). -/
  pc : Nat
  /-- The flags byte `00000LGE` (R29). -/
  fl : Byte
  /-- The run flag (R32). -/
  running : Bool
  /-- The error latch (R34). -/
  fault : Option ErrorKind
  /-- The output stream, oldest event first (R33). -/
  out : List OutEvent
deriving DecidableEq, Repr

/-- Why a step could end in a fault of the model: never, so there is no constructor. Every error the spec names is
latched in `State.fault` by a NEXT state, as R229 and R231 describe (log entry 5; safe: nothing is lost). -/
inductive Fault where
deriving DecidableEq, Repr

/-- Why an instruction could have no meaning. -/
inductive Refusal where
  /-- Raised by an arm of `exec` whose instruction has no meaning yet (safe). No arm raises it: all 34 have one. -/
  | notModelled (mnemonic : String)
deriving DecidableEq, Repr

/-- What a step or a meaning answers. -/
abbrev Result := Host.Outcome State Fault Refusal

/-- The register file after reset (R39). -/
def Regs.reset : Regs :=
  { r0 := Config.regInit, r1 := Config.regInit, r2 := Config.regInit, r3 := Config.regInit,
    r4 := Config.regInit, r5 := Config.regInit, r6 := Config.regInit, r7 := Config.spReset }

/-- The machine right after reset, before an image is loaded (R39, R261). -/
def State.reset : State :=
  { mem := [], regs := Regs.reset, pc := 0, fl := Config.flInit, running := true, fault := none, out := [] }

end Sys2Proof.Machine
end

