-- ==== Sys2Proof/Machine/Ops.lean ====
section
/-! DEFINITION. The primitives of R9 over registers, memory, the program counter, the output stream and the error latch,
and raising an error (R229), which is this machine's only kind of trap entry. -/

namespace Sys2Proof.Machine

/-- `trunc8(n)`: `n mod 256`, for any integer, negative included (R9). -/
def trunc8 (n : Int) : Byte := BitVec.ofInt 8 n

/-- Read one register (`get` of R41). -/
def Regs.get (rs : Regs) : Reg → Byte
  | .r0 => rs.r0
  | .r1 => rs.r1
  | .r2 => rs.r2
  | .r3 => rs.r3
  | .r4 => rs.r4
  | .r5 => rs.r5
  | .r6 => rs.r6
  | .r7 => rs.r7

/-- Write one register (`set` of R41). No register is hard-wired or read-only (R21). -/
def Regs.set (rs : Regs) (r : Reg) (v : Byte) : Regs :=
  match r with
  | .r0 => { rs with r0 := v }
  | .r1 => { rs with r1 := v }
  | .r2 => { rs with r2 := v }
  | .r3 => { rs with r3 := v }
  | .r4 => { rs with r4 := v }
  | .r5 => { rs with r5 := v }
  | .r6 => { rs with r6 := v }
  | .r7 => { rs with r7 := v }

/-- `x[r]` (R9). -/
def State.reg (s : State) (r : Reg) : Byte := s.regs.get r

/-- `x[r] <- v` (R9). -/
def State.setReg (s : State) (r : Reg) (v : Byte) : State := { s with regs := s.regs.set r v }

/-- `SP`, the value of R7 (R9, R23). -/
def State.sp (s : State) : Byte := s.reg .r7

/-- The byte at an address: the one stored last, or `MEM_INIT` (R51). -/
def Memory.read : Memory → Nat → Byte
  | [], _ => Config.memInit
  | (k, v) :: m, a => if k = a then v else Memory.read m a

/-- Take the cell of an address out of the list. -/
def Memory.erase (m : Memory) (a : Nat) : Memory := m.filter fun c => decide (c.1 ≠ a)

/-- Put a cell into the list before the first higher address. -/
def Memory.insert (a : Nat) (v : Byte) : Memory → Memory
  | [] => [(a, v)]
  | (k, w) :: m => if a < k then (a, v) :: (k, w) :: m else (k, w) :: Memory.insert a v m

/-- Store a byte (R51), keeping the canonical form: a cell that holds `MEM_INIT` is not listed. -/
def Memory.write (m : Memory) (a : Nat) (v : Byte) : Memory :=
  if v = Config.memInit then m.erase a else (m.erase a).insert a v

/-- The canonical form: rising addresses, all below 256, no cell equal to what an unlisted one reads as (R36, R50). -/
abbrev Memory.wf (m : Memory) : Prop :=
  m.Pairwise (fun c d => c.1 < d.1) ∧ ∀ c ∈ m, c.1 < Config.memSize ∧ c.2 ≠ Config.memInit

/-- `MemRead(addr, 1)` with its range check (R52). -/
def State.memRead (s : State) (addr : Nat) : Except ErrorKind Byte :=
  if addr < Config.memSize then .ok (s.mem.read addr) else .error (.outOfRangeMemoryAccess addr)

/-- `MemWrite(addr, 1, v)` with its range check (R52). -/
def State.memWrite (s : State) (addr : Nat) (v : Byte) : Except ErrorKind State :=
  if addr < Config.memSize then .ok { s with mem := s.mem.write addr v }
  else .error (.outOfRangeMemoryAccess addr)

/-- A data read: its address is a byte, so the range check of R52 always passes (R53). -/
def State.load8 (s : State) (addr : Byte) : Byte := s.mem.read addr.toNat

/-- A data write: its address is a byte, so the range check of R52 always passes (R53). -/
def State.store8 (s : State) (addr v : Byte) : State := { s with mem := s.mem.write addr.toNat v }

/-- `pc <- t` with a byte as target (R180). -/
def State.jumpTo (s : State) (target : Byte) : State := { s with pc := target.toNat }

/-- The advance past an instruction of `len` bytes; it does not wrap (R26, R109, R118). -/
def State.advance (s : State) (len : Nat) : State := { s with pc := s.pc + len }

/-- `FL <- v`. -/
def State.setFl (s : State) (v : Byte) : State := { s with fl := v }

/-- `Emit(e)` (R9, R120). -/
def State.emit (s : State) (e : OutEvent) : State := { s with out := s.out ++ [e] }

/-- `running <- false`, the effect of HLT (R200). -/
def State.halt (s : State) : State := { s with running := false }

/-- Raising an error, the only trap entry of this machine: the latch is set, the run flag is cleared for a division by
zero alone, and nothing else changes (R229, R231, R243). Nothing returns from it (R232). -/
def State.raise (s : State) (k : ErrorKind) : State :=
  { s with fault := some k, running := if k = .divisionByZero then false else s.running }

/-- The machine has no step: it is halted or an error is latched (R101). -/
def State.stopped (s : State) : Bool := !s.running || s.fault.isSome

/-- The error that the decoder's refusal stands for (R222, R223). -/
def ErrorKind.ofDecode : DecodeError → ErrorKind
  | .undefinedOpcode ir => .undefinedOpcode ir
  | .invalidRegisterIndex v => .invalidRegisterIndex v

end Sys2Proof.Machine
end

