-- ==== Sys2Proof/Machine/Flags.lean ====
section
/-! DEFINITION. The flags byte `00000LGE` (R29): what CMP makes of it (R146) and what the six conditional jumps read in it
(R181). -/

namespace Sys2Proof.Machine

/-- E, bit 0 (R29). -/
def flagE (fl : Byte) : Bool := fl.getLsbD 0

/-- G, bit 1 (R29). -/
def flagG (fl : Byte) : Bool := fl.getLsbD 1

/-- L, bit 2 (R29). -/
def flagL (fl : Byte) : Bool := fl.getLsbD 2

/-- The flags after a compare of the unsigned bytes `u` and `v`: L, G and E are cleared, bits 7:3 kept, then exactly one
of the three is set (R146). -/
def cmpFlags (fl u v : Byte) : Byte :=
  let kept := fl &&& 0b11111000#8
  if u.toNat = v.toNat then kept ||| 0b00000001#8
  else if u.toNat > v.toNat then kept ||| 0b00000010#8
  else kept ||| 0b00000100#8

/-- JEQ is taken when E is set (R181). -/
def condEq (fl : Byte) : Bool := flagE fl

/-- JNE is taken when E is clear (R181). -/
def condNe (fl : Byte) : Bool := !flagE fl

/-- JGT is taken when G is set (R181). -/
def condGt (fl : Byte) : Bool := flagG fl

/-- JGE is taken when G or E is set (R181). -/
def condGe (fl : Byte) : Bool := flagG fl || flagE fl

/-- JLT is taken when L, which is bit 2 and not bit 3, is set (R181, R187). -/
def condLt (fl : Byte) : Bool := flagL fl

/-- JLE is taken when L or E is set (R181). -/
def condLe (fl : Byte) : Bool := flagL fl || flagE fl

end Sys2Proof.Machine
end

