-- ==== Sys2Proof/Machine/AluUnit.lean ====
section
/-! DEFINITION. `alu_byte` (R116): the fourteen operations on byte values, and the shared shape of an ALU instruction
(R130): both operands are read, then the result is written. -/

namespace Sys2Proof.Machine

/-- The operations of the ALU (R116, R130). The type is closed, so `UnsupportedAluOperation` has no cause (R148). -/
inductive AluOp where
  | add | sub | mul | div | mod | inc | dec | and | or | xor | not | shl | shr | cmp
deriving DecidableEq, Repr

/-- What the ALU gives back: the destination's new value, unless the operation writes none, and the new flags (R116). -/
structure AluResult where
  dest : Option Byte
  fl : Byte
deriving DecidableEq, Repr

/-- ADD (R133). -/
def aluAdd (u v : Byte) : Byte := trunc8 ((u.toNat : Int) + v.toNat)

/-- SUB (R134): the difference modulo 256, also when it is negative (R131). -/
def aluSub (u v : Byte) : Byte := trunc8 ((u.toNat : Int) - v.toNat)

/-- MUL (R135): the low 8 bits of the product. -/
def aluMul (u v : Byte) : Byte := trunc8 ((u.toNat : Int) * v.toNat)

/-- DIV with a divisor that is not 0 (R136): the unsigned quotient, rounded down. -/
def aluDiv (u v : Byte) : Byte := trunc8 ((u.toNat / v.toNat : Nat) : Int)

/-- MOD with a divisor that is not 0 (R137): what the quotient leaves. -/
def aluMod (u v : Byte) : Byte :=
  trunc8 ((u.toNat : Int) - (v.toNat : Int) * ((u.toNat / v.toNat : Nat) : Int))

/-- INC (R138). -/
def aluInc (u : Byte) : Byte := trunc8 ((u.toNat : Int) + 1)

/-- DEC (R139). -/
def aluDec (u : Byte) : Byte := trunc8 ((u.toNat : Int) - 1)

/-- AND (R140). -/
def aluAnd (u v : Byte) : Byte := u &&& v

/-- OR (R141). -/
def aluOr (u v : Byte) : Byte := u ||| v

/-- XOR (R142). -/
def aluXor (u v : Byte) : Byte := u ^^^ v

/-- NOT (R143): `255 - u`, which inverts every bit. -/
def aluNot (u : Byte) : Byte := trunc8 (255 - (u.toNat : Int))

/-- SHL (R144): the count is the whole byte, so 8 or more gives 0. -/
def aluShl (u s : Byte) : Byte := trunc8 ((u.toNat * 2 ^ s.toNat : Nat) : Int)

/-- SHR (R145): logical, the count is the whole byte. -/
def aluShr (u s : Byte) : Byte := trunc8 ((u.toNat / 2 ^ s.toNat : Nat) : Int)

/-- `apply` of R116 on operand values: `u` is the destination's old value, `v` the source's (unused by INC, DEC and NOT),
`fl` the old flags. The only failure is a zero divisor (R136, R137); only CMP changes the flags, and it writes no
register (R132, R146). -/
def aluApply (op : AluOp) (u v fl : Byte) : Except ErrorKind AluResult :=
  match op with
  | .add => .ok ⟨some (aluAdd u v), fl⟩
  | .sub => .ok ⟨some (aluSub u v), fl⟩
  | .mul => .ok ⟨some (aluMul u v), fl⟩
  | .div => if v.toNat = 0 then .error .divisionByZero else .ok ⟨some (aluDiv u v), fl⟩
  | .mod => if v.toNat = 0 then .error .divisionByZero else .ok ⟨some (aluMod u v), fl⟩
  | .inc => .ok ⟨some (aluInc u), fl⟩
  | .dec => .ok ⟨some (aluDec u), fl⟩
  | .and => .ok ⟨some (aluAnd u v), fl⟩
  | .or => .ok ⟨some (aluOr u v), fl⟩
  | .xor => .ok ⟨some (aluXor u v), fl⟩
  | .not => .ok ⟨some (aluNot u), fl⟩
  | .shl => .ok ⟨some (aluShl u v), fl⟩
  | .shr => .ok ⟨some (aluShr u v), fl⟩
  | .cmp => .ok ⟨none, cmpFlags fl u v⟩

/-- Write what the ALU gave back: the destination register, if there is a value for it, and the flags (R116). -/
def State.commitAlu (s : State) (a : Reg) (r : AluResult) : State :=
  match r.dest with
  | some v => (s.setReg a v).setFl r.fl
  | none => s.setFl r.fl

/-- An ALU instruction of `len` bytes on the operand values `u` and `v`: the result is committed and pc moves on, or the
error is raised with none of the effect (R130, R225, R231). -/
def aluInstr (op : AluOp) (a : Reg) (u v : Byte) (len : Nat) (s : State) : Result :=
  match aluApply op u v s.fl with
  | .ok r => .next ((s.commitAlu a r).advance len)
  | .error k => .next (s.raise k)

/-- A two-operand ALU instruction, 3 bytes (R130). -/
def aluTwo (op : AluOp) (a b : Reg) (s : State) : Result := aluInstr op a (s.reg a) (s.reg b) 3 s

/-- A one-operand ALU instruction, 2 bytes; the ALU's source value is never used (R116, R130), so 0 is passed for it. -/
def aluOne (op : AluOp) (a : Reg) (s : State) : Result := aluInstr op a (s.reg a) 0 2 s

end Sys2Proof.Machine
end

