-- ==== Sys2Proof/Machine/Alu.lean ====
section
/-! DEFINITION. The fourteen ALU instructions (41_alu.md), one meaning each over the shared ALU. -/

namespace Sys2Proof.Machine

/-- R138. -/
def execInc (a : Reg) (s : State) : Result := aluOne .inc a s

/-- R139. -/
def execDec (a : Reg) (s : State) : Result := aluOne .dec a s

/-- R143. -/
def execNot (a : Reg) (s : State) : Result := aluOne .not a s

/-- R133. -/
def execAdd (a b : Reg) (s : State) : Result := aluTwo .add a b s

/-- R134. -/
def execSub (a b : Reg) (s : State) : Result := aluTwo .sub a b s

/-- R135. -/
def execMul (a b : Reg) (s : State) : Result := aluTwo .mul a b s

/-- R136: a zero divisor raises DivisionByZero and halts (R225). -/
def execDiv (a b : Reg) (s : State) : Result := aluTwo .div a b s

/-- R137: a zero divisor raises DivisionByZero and halts (R225). -/
def execMod (a b : Reg) (s : State) : Result := aluTwo .mod a b s

/-- R146: writes FL and no register. -/
def execCmp (a b : Reg) (s : State) : Result := aluTwo .cmp a b s

/-- R140. -/
def execAnd (a b : Reg) (s : State) : Result := aluTwo .and a b s

/-- R141. -/
def execOr (a b : Reg) (s : State) : Result := aluTwo .or a b s

/-- R142. -/
def execXor (a b : Reg) (s : State) : Result := aluTwo .xor a b s

/-- R144. -/
def execShl (a b : Reg) (s : State) : Result := aluTwo .shl a b s

/-- R145. -/
def execShr (a b : Reg) (s : State) : Result := aluTwo .shr a b s

end Sys2Proof.Machine
end

