-- ==== Sys2Proof/Machine/Operands.lean ====
section
/-! DEFINITION. The ways an instruction reaches its operands (R167): registers and the immediate (direct), register
indirect, and the stack with its two primitives (R160, R161). -/

namespace Sys2Proof.Machine

/-- Register indirect: the effective address is the whole value of the register (R167). -/
def State.ea (s : State) (r : Reg) : Byte := s.reg r

/-- Where the next push stores: the decremented stack pointer, modulo 256 (R160). -/
def State.pushAddr (s : State) : Byte := trunc8 ((s.sp.toNat : Int) - 1)

/-- The first half of a push: the stack pointer is decremented (R160). -/
def State.decSp (s : State) : State := s.setReg .r7 s.pushAddr

/-- The second half of a pop: the stack pointer is incremented, modulo 256 (R161). -/
def State.incSp (s : State) : State := s.setReg .r7 (trunc8 ((s.sp.toNat : Int) + 1))

/-- `Push(v)`: decrement, then store at the decremented pointer (R160). -/
def State.push (s : State) (v : Byte) : State := s.decSp.store8 s.decSp.sp v

/-- The byte on top of the stack (R161). -/
def State.top (s : State) : Byte := s.load8 s.sp

/-- `x[r] <- Pop()`: the popped byte is read first, then the pointer moves, then the register is written (R161, R205). -/
def State.popReg (s : State) (r : Reg) : State := s.incSp.setReg r s.top

/-- `FL <- Pop()` (R205). -/
def State.popFl (s : State) : State := s.incSp.setFl s.top

/-- `pc <- Pop()` (R190, R205). -/
def State.popPc (s : State) : State := s.incSp.jumpTo s.top

end Sys2Proof.Machine
end

