-- ==== Sys2Proof/Machine/Control.lean ====
section
/-! DEFINITION. The jumps, CALL and RET (43_control_transfer.md). Each sets pc itself (R110). -/

namespace Sys2Proof.Machine

/-- A conditional jump: the whole register value is the target; not taken, pc moves past the 2 bytes (R180, R181). -/
def jumpIf (taken : Bool) (a : Reg) (s : State) : Result :=
  .next (if taken then s.jumpTo (s.reg a) else s.advance 2)

/-- R182. -/
def execJmp (a : Reg) (s : State) : Result := .next (s.jumpTo (s.reg a))

/-- R183. -/
def execJeq (a : Reg) (s : State) : Result := jumpIf (condEq s.fl) a s

/-- R184. -/
def execJne (a : Reg) (s : State) : Result := jumpIf (condNe s.fl) a s

/-- R185. -/
def execJgt (a : Reg) (s : State) : Result := jumpIf (condGt s.fl) a s

/-- R187. -/
def execJlt (a : Reg) (s : State) : Result := jumpIf (condLt s.fl) a s

/-- R188. -/
def execJle (a : Reg) (s : State) : Result := jumpIf (condLe s.fl) a s

/-- R186. -/
def execJge (a : Reg) (s : State) : Result := jumpIf (condGe s.fl) a s

/-- The return address CALL pushes, the address after its operand (R189). Within the fetch window it fits a byte;
outside it no step executes a CALL, and the byte kept is its low 8 bits (log entry 10). -/
def State.returnAddr (s : State) : Byte := trunc8 ((s.pc : Int) + 2)

/-- R189: the push happens before the target register is read, so CALL R7 jumps to the decremented pointer. -/
def execCall (a : Reg) (s : State) : Result :=
  .next ((s.push s.returnAddr).jumpTo ((s.push s.returnAddr).reg a))

/-- R190. -/
def execRet (s : State) : Result := .next s.popPc

end Sys2Proof.Machine
end

