-- ==== Sys2Proof/Machine/LoadStore.lean ====
section
/-! DEFINITION. LDI, LD, ST, PUSH and POP (42_load_store_stack.md). -/

namespace Sys2Proof.Machine

/-- R162: the immediate goes into the register as it is (R74). -/
def execLdi (a : Reg) (imm : Byte) (s : State) : Result := .next ((s.setReg a imm).advance 3)

/-- R163: the address is read before the destination is written. -/
def execLd (a b : Reg) (s : State) : Result := .next ((s.setReg a (s.load8 (s.ea b))).advance 3)

/-- R164: the first operand is the address, the second the data. -/
def execSt (a b : Reg) (s : State) : Result := .next ((s.store8 (s.ea a) (s.reg b)).advance 3)

/-- R165: the register is read after the decrement, so PUSH R7 stores the decremented pointer. -/
def execPush (a : Reg) (s : State) : Result :=
  .next ((s.decSp.store8 s.decSp.sp (s.decSp.reg a)).advance 2)

/-- R166: the register is written before the increment, so POP R7 leaves the popped byte plus one. -/
def execPop (a : Reg) (s : State) : Result := .next ((s.setReg a s.top).incSp.advance 2)

end Sys2Proof.Machine
end

