-- ==== Sys2Proof/Machine/System.lean ====
section
/-! DEFINITION. HLT, NOP, PRN, PRA, INT and IRET (44_system_io_interrupt.md). -/

namespace Sys2Proof.Machine

/-- R200: the run flag is cleared and pc moves past the HLT. -/
def execHlt (s : State) : Result := .next (s.halt.advance 1)

/-- R201. -/
def execNop (s : State) : Result := .next (s.advance 1)

/-- R202. -/
def execPrn (a : Reg) (s : State) : Result := .next ((s.emit (.dec (s.reg a))).advance 2)

/-- R203. -/
def execPra (a : Reg) (s : State) : Result := .next ((s.emit (.chr (s.reg a))).advance 2)

/-- The bit of R6 that INT sets: none when the number is 8 or more (R204). -/
def interruptBit (n : Byte) : Byte := trunc8 ((2 ^ n.toNat : Nat) : Int)

/-- R204: one bit of R6 is set; nothing is delivered (R234). -/
def execInt (a : Reg) (s : State) : Result :=
  .next ((s.setReg .r6 (s.reg .r6 ||| interruptBit (s.reg a))).advance 2)

/-- R205: nine pops, R6 down to R0, then FL, then pc. The return this machine has, though nothing is ever entered
(R234, R235). -/
def execIret (s : State) : Result :=
  .next (((((((((s.popReg .r6).popReg .r5).popReg .r4).popReg .r3).popReg .r2).popReg .r1).popReg .r0).popFl).popPc)

end Sys2Proof.Machine
end

