-- ==== Sys2Proof/Machine/Fetch.lean ====
section
/-! DEFINITION. The front end of a cycle (R102 to R107): fetch three bytes, dispatch, check the register indices. -/

namespace Sys2Proof.Machine

/-- Fetch the opcode and, whatever it is, the next two bytes; each read is range-checked, so pc of 254 or more fails with
the first address out of range (R102, R103, R104). -/
def State.fetch (s : State) : Except ErrorKind Window :=
  match s.memRead s.pc with
  | .error k => .error k
  | .ok ir =>
    match s.memRead (s.pc + 1) with
    | .error k => .error k
    | .ok opA =>
      match s.memRead (s.pc + 2) with
      | .error k => .error k
      | .ok opB => .ok ⟨ir, opA, opB⟩

/-- The whole front end: the instruction at pc, or the first error that applies (R105 to R107, R230). -/
def State.fetchDecode (s : State) : Except ErrorKind Instr :=
  match s.fetch with
  | .error k => .error k
  | .ok w =>
    match decode w with
    | .ok i => .ok i
    | .error e => .error (ErrorKind.ofDecode e)

/-- Put one byte into memory, if there is such an address. -/
def Memory.place (m : Memory) (a : Nat) (v : Byte) : Memory :=
  if a < Config.memSize then m.write a v else m

/-- Put three bytes where the next cycle fetches (log entry 22). -/
def State.placeWindow (s : State) (w : Window) : State :=
  { s with mem := ((s.mem.place s.pc w.ir).place (s.pc + 1) w.opA).place (s.pc + 2) w.opB }

end Sys2Proof.Machine
end

