-- ==== Sys2Proof/Machine/Step.lean ====
section
/-! DEFINITION. One cycle of the engine (R121). -/

namespace Sys2Proof.Machine

/-- One cycle: a stopped machine does not change (R101); an error of the front end is latched (R229); otherwise the
instruction at pc runs (R108). -/
def step (s : State) : Host.Outcome State Fault Refusal :=
  if s.stopped then .next s
  else
    match s.fetchDecode with
    | .ok i => exec i s
    | .error k => .next (s.raise k)

/-- `s` with the instruction of a numbered word (bits from `nbits` on are 0) where the next cycle fetches it: a stand-in for
the host's load (log entry 22). -/
def State.withFetchWord (s : State) (nbits w : Nat) : State := s.placeWindow (tableWindow nbits w)

end Sys2Proof.Machine
end

