-- ==== Sys2Proof/Machine/HostOps.lean ====
section
/-! DEFINITION. What the host does before and after a run (R114): load an image (R266, R267), run (R112), and read the
output as text (R202, R203). -/

namespace Sys2Proof.Machine

/-- The image's bytes at consecutive addresses from an origin (R65). -/
def Memory.writeImage (m : Memory) : Nat → List Byte → Memory
  | _, [] => m
  | a, v :: vs => Memory.writeImage (m.write a v) (a + 1) vs

/-- `load(image, origin)` (R226, R266, R267): an image that does not fit writes nothing and is reported, not latched. -/
def State.loadAt (s : State) (origin : Nat) (image : List Byte) : Except ErrorKind State :=
  if origin + image.length > Config.memSize then .error .programTooLarge
  else .ok { s with mem := s.mem.writeImage origin image }

/-- `load(image, 0)`, the only load the spec uses (R266). -/
def State.load (s : State) (image : List Byte) : Except ErrorKind State := s.loadAt 0 image

/-- How a run stands (R112). -/
inductive RunStatus where
  /-- The machine has a further step. -/
  | going
  /-- HLT was executed and no error is latched. -/
  | endedNormally
  /-- An error is latched. -/
  | endedInError (k : ErrorKind)
deriving DecidableEq, Repr

/-- The status of a run, read from the state (R112). -/
def State.status (s : State) : RunStatus :=
  match s.fault with
  | some k => .endedInError k
  | none => if s.running then .going else .endedNormally

/-- `run()` under fuel: cycles until the machine is stopped or the fuel is used up (R112, R275). -/
def runFor : Nat → State → Result
  | 0, s => .next s
  | n + 1, s =>
    if s.stopped then .next s
    else
      match step s with
      | .next t => runFor n t
      | .fault f => .fault f
      | .refused r => .refused r

/-- One decimal digit. -/
def digitChar (n : Nat) : Char := Char.ofNat (48 + n % 10)

/-- The decimal digits of a byte: no sign, no leading zeros, `0` for zero (R202). -/
def decimalDigits (v : Byte) : List Char :=
  if v.toNat < 10 then [digitChar v.toNat]
  else if v.toNat < 100 then [digitChar (v.toNat / 10), digitChar v.toNat]
  else [digitChar (v.toNat / 100), digitChar (v.toNat / 10), digitChar v.toNat]

/-- The text an event stands for: a decimal line ended by U+000A (R202), or one character, whose glyph is left open for
codes of 128 or more (R203, log entry 19). -/
def OutEvent.text : OutEvent → List Char
  | .dec v => decimalDigits v ++ [Char.ofNat 10]
  | .chr v => if v.toNat < 128 then [Char.ofNat v.toNat] else [Config.glyph v]

/-- The text of the whole output stream (R33). -/
def State.outText (s : State) : List Char := s.out.flatMap OutEvent.text

end Sys2Proof.Machine
end

