-- ==== Sys2Proof/Safety.lean ====
section
/-! DEFINITION. The terms the claims use: the invariant of the machine, and what an instruction may change. -/

namespace Sys2Proof

open Machine

/-- The error latch is consistent with the rest of the state: an out-of-range error reports 256 with pc at 254 or more
(R104), an undefined opcode is the byte at pc and in no row of the table (R223), a bad index is 8 or more (R222), a
division by zero has cleared the run flag and the other errors have not (R225, R243), and the kinds no cycle raises are
absent (R224, R226, R227). -/
def Machine.State.LatchOk (s : State) : Prop :=
  match s.fault with
  | none => True
  | some (.outOfRangeMemoryAccess addr) => addr = 256 ∧ 254 ≤ s.pc ∧ s.running = true
  | some (.undefinedOpcode v) => v = s.mem.read s.pc ∧ lookup v = none ∧ s.running = true
  | some (.invalidRegisterIndex v) => 8 ≤ v.toNat ∧ s.running = true
  | some .divisionByZero => s.running = false
  | some .unsupportedAluOperation => False
  | some .programTooLarge => False
  | some .fileNotFound => False

/-- The invariant of the machine: pc is at most 256 (R26), memory is in its canonical form within 0 to 255 (R36), and the
error latch is consistent. -/
structure Machine.State.Inv (s : State) : Prop where
  pcRange : s.pc ≤ 256
  memWf : s.mem.wf
  latchOk : s.LatchOk

/-- The registers outside a list are as before. -/
def SameRegsBut (s t : State) (rs : List Reg) : Prop := ∀ r, r ∉ rs → t.reg r = s.reg r

/-- Every byte of memory is as before. -/
def SameMem (s t : State) : Prop := ∀ x, t.mem.read x = s.mem.read x

/-- Every byte of memory but the one at an address is as before. -/
def SameMemBut (s t : State) (addr : Byte) : Prop := ∀ x, x ≠ addr.toNat → t.mem.read x = s.mem.read x

/-- The run flag, the error latch and the output stream are as before. -/
def SameControl (s t : State) : Prop := t.running = s.running ∧ t.fault = s.fault ∧ t.out = s.out

/-- Nothing but pc and the registers in a list has changed. -/
def OnlyRegs (s t : State) (rs : List Reg) : Prop :=
  SameRegsBut s t rs ∧ SameMem s t ∧ t.fl = s.fl ∧ SameControl s t

/-- The thirteen ALU instructions that are not CMP (R132). -/
def Instr.isAluButCmp : Instr → Bool
  | .add _ _ | .sub _ _ | .mul _ _ | .div _ _ | .mod _ _ | .and _ _ | .or _ _ | .xor _ _ | .shl _ _ | .shr _ _
  | .inc _ | .dec _ | .not _ => true
  | .nop | .hlt | .ret | .iret | .push _ | .pop _ | .prn _ | .pra _ | .call _ | .int _ | .jmp _ | .jeq _ | .jne _
  | .jgt _ | .jlt _ | .jle _ | .jge _ | .ldi _ _ | .ld _ _ | .st _ _ | .cmp _ _ => false

/-- The registers an instruction writes, by name or implicitly: the write rows of R22's table. -/
def Instr.writes : Instr → List Reg
  | .nop | .hlt | .prn _ | .pra _ | .jmp _ | .jeq _ | .jne _ | .jgt _ | .jlt _ | .jle _ | .jge _ | .st _ _ | .cmp _ _ => []
  | .ret | .push _ | .call _ => [.r7]
  | .iret => [.r0, .r1, .r2, .r3, .r4, .r5, .r6, .r7]
  | .pop a => [a, .r7]
  | .int _ => [.r6]
  | .inc a | .dec a | .not a | .ldi a _ | .ld a _ => [a]
  | .add a _ | .sub a _ | .mul a _ | .div a _ | .mod a _ | .and a _ | .or a _ | .xor a _ | .shl a _ | .shr a _ => [a]

/-- The registers an instruction names in an operand, whether it reads or writes them (R22). -/
def Instr.names : Instr → List Reg
  | .nop | .hlt | .ret | .iret => []
  | .push a | .pop a | .prn a | .pra a | .call a | .int a | .jmp a | .jeq a | .jne a | .jgt a | .jlt a | .jle a
  | .jge a | .inc a | .dec a | .not a | .ldi a _ => [a]
  | .ld a b | .st a b | .add a b | .sub a b | .mul a b | .div a b | .mod a b | .cmp a b | .and a b | .or a b | .xor a b
  | .shl a b | .shr a b => [a, b]

/-- The one cell an instruction stores to, computed as its meaning computes it (R53's table). -/
def Instr.storesTo (i : Instr) (s : State) : Option Byte :=
  match i with
  | .st a _ => some (s.ea a)
  | .push _ | .call _ => some s.pushAddr
  | .nop | .hlt | .ret | .iret | .pop _ | .prn _ | .pra _ | .int _ | .jmp _ | .jeq _ | .jne _ | .jgt _ | .jlt _ | .jle _
  | .jge _ | .inc _ | .dec _ | .not _ | .ldi _ _ | .ld _ _ | .add _ _ | .sub _ _ | .mul _ _ | .div _ _ | .mod _ _
  | .cmp _ _ | .and _ _ | .or _ _ | .xor _ _ | .shl _ _ | .shr _ _ => none

end Sys2Proof
end

