-- ==== Sys2Proof/Certificates/Slice0/Obligations.lean ====
section
/-! DEFINITION. The statements about the machine, each formalising rules of spec/. A `∃ t, exec … = .next t ∧ …` says that
the instruction answers a next state, and what that state holds. -/

open Sys2Proof Sys2Proof.Machine

/-! ### Encoding -/

/-- R70, R72, R76, R81: whatever two bytes follow an instruction's own in memory, the decoder reads that instruction.
The spec's own decision: D1 (log entry 1). -/
def Obligations.DecodeReadsEncodedInstruction : Prop :=
  ∀ (i : Instr) (x y : Byte), ∃ w, Window.ofBytes? (encode i ++ [x, y]) = some w ∧ decode w = .ok i

/-- R70, R72: an instruction that the decoder reads has exactly the first `1 + n` fetched bytes as its encoding, `n`
from the opcode's bits 7:6, so no bit of them is dropped. The spec's own decision: D1 (log entry 1). -/
def Obligations.EncodingRestoresDecodedBytes : Prop :=
  ∀ (w : Window) (i : Instr), decode w = .ok i → encode i = w.bytes.take (1 + operandCountOf w.ir)

/-- R72, R75: for every opcode map that meets the source's two constraints, decoding reads what encoding wrote, and the
opcode's bits 7:6 give the length. The spec's own decision: D1 (log entry 1). -/
def Obligations.RoundTripUnderEveryOpcodeMap : Prop :=
  ∀ m : Op → Byte, OpcodeMapOk m → ∀ (i : Instr) (x y : Byte),
    (encodeWith m i).length = 1 + operandCountOf (m i.op) ∧
      ∃ w, Window.ofBytes? (encodeWith m i ++ [x, y]) = some w ∧ decodeWith m w = .ok i

/-- R72, R75: the default map is injective and each opcode's bits 7:6 are the mnemonic's operand count. The numbers
themselves are PRESUMED (log entry 1). The spec's own decision: D1 (log entry 1). -/
def Obligations.DefaultOpcodeMapMeetsConstraints : Prop := OpcodeMapOk Op.opcode

/-- R78, R83, R106: the decoder answers UndefinedOpcode exactly for an opcode byte of no mnemonic, with that byte as
info, whatever the operand bytes; a byte with bits 7:6 = 11 is one. The spec's own decision: D1 (log entry 1). R83
is the spec's own inference. -/
def Obligations.UndefinedOpcodeExactlyOutsideTable : Prop :=
  ∀ (w : Window) (v : Byte),
    (decode w = .error (.undefinedOpcode v) ↔ v = w.ir ∧ ∀ op : Op, op.opcode ≠ w.ir) ∧
      (operandCountOf w.ir = 3 → decode w = .error (.undefinedOpcode w.ir))

/-- R73, R74, R81, R107: for a defined opcode a register slot whose byte is 8 or more is refused with that byte, slot A
before slot B; with every register slot below 8 the decoder reads an instruction of that mnemonic. The spec's own
decisions: D15, D16, D28 (log entry 16). -/
def Obligations.IndexCheckCoversRegisterSlots : Prop :=
  ∀ (w : Window) (op : Op), op.opcode = w.ir →
    (op.slotA = .reg → 8 ≤ w.opA.toNat → decode w = .error (.invalidRegisterIndex w.opA)) ∧
    ((op.slotA = .reg → w.opA.toNat < 8) → op.slotB = .reg → 8 ≤ w.opB.toNat →
      decode w = .error (.invalidRegisterIndex w.opB)) ∧
    ((op.slotA = .reg → w.opA.toNat < 8) → (op.slotB = .reg → w.opB.toNat < 8) →
      ∃ i, decode w = .ok i ∧ i.op = op)

/-- R76 and the byte listings of 95_test_vectors.md: words written out from the encodings decode to their instructions.
The spec's own decision: D1 (log entry 1). -/
def Obligations.ListedWordsDecode : Prop :=
  decode ⟨0x82, 0x00, 0x08⟩ = .ok (.ldi .r0 8) ∧ decode ⟨0x83, 0x05, 0x04⟩ = .ok (.ld .r5 .r4) ∧
  decode ⟨0x84, 0x04, 0x00⟩ = .ok (.st .r4 .r0) ∧ decode ⟨0xA7, 0x01, 0x02⟩ = .ok (.cmp .r1 .r2) ∧
  decode ⟨0x56, 0x03, 0xFF⟩ = .ok (.jne .r3) ∧ decode ⟨0x13, 0xFF, 0xFF⟩ = .ok .iret ∧
  decode ⟨0x52, 0x06, 0xFF⟩ = .ok (.int .r6) ∧ decode ⟨0xFF, 0x00, 0x00⟩ = .error (.undefinedOpcode 0xFF) ∧
  decode ⟨0xA0, 0x0A, 0x09⟩ = .error (.invalidRegisterIndex 10)

/-! ### The cycle -/

/-- R121: in a machine that is not stopped, with pc inside the fetch window, when the three bytes at pc decode to an
instruction, the step is exactly that instruction's effect: nothing is added around it. R121 is the spec's own
inference. -/
def Obligations.StepRunsDecodedInstruction : Prop :=
  ∀ (s : State) (i : Instr), s.running = true → s.fault = none → s.pc ≤ 253 →
    decode ⟨s.mem.read s.pc, s.mem.read (s.pc + 1), s.mem.read (s.pc + 2)⟩ = .ok i → step s = exec i s

/-- R101: a machine that is halted or has an error latched does not change, in one step or in any number of them. The
spec's own decision: D19 (log entry 6). -/
def Obligations.StoppedMachineStaysAsItIs : Prop :=
  ∀ (s : State) (k : Nat), s.running = false ∨ s.fault ≠ none →
    step s = .next s ∧ Host.Core.run core k s = .next s

/-- R104, R221: a cycle that starts with pc at 254, 255 or 256 raises OutOfRangeMemoryAccess(256), whatever is in
memory; nothing but the latch changes. The spec's own decisions: D9 (log entry 8), D14 (log entry 16). -/
def Obligations.FetchPastWindowRaises : Prop :=
  ∀ s : State, s.running = true → s.fault = none → 254 ≤ s.pc → s.pc ≤ 256 →
    step s = .next { s with fault := some (.outOfRangeMemoryAccess 256) }

/-- R223: a cycle whose opcode byte is in no row of the table raises UndefinedOpcode with that byte, whatever the
operand bytes. That nothing else changes is `Obligations.ErrorsArePrecise`. -/
def Obligations.UndefinedOpcodeRaises : Prop :=
  ∀ s : State, s.running = true → s.fault = none → s.pc ≤ 253 → (∀ op : Op, op.opcode ≠ s.mem.read s.pc) →
    ∃ t, step s = .next t ∧ t.fault = some (.undefinedOpcode (s.mem.read s.pc))

/-- R107, R222, R230: a register operand of 8 or more raises InvalidRegisterIndex with that byte, slot A before slot B,
for every mnemonic with such a slot, a jump that would not be taken and a division by zero included. The spec's own
decisions: D14, D15, D16, D28 (log entry 16). -/
def Obligations.InvalidRegisterIndexRaises : Prop :=
  ∀ (s : State) (op : Op), s.running = true → s.fault = none → s.pc ≤ 253 → op.opcode = s.mem.read s.pc →
    (op.slotA = .reg → 8 ≤ (s.mem.read (s.pc + 1)).toNat →
      step s = .next { s with fault := some (.invalidRegisterIndex (s.mem.read (s.pc + 1))) }) ∧
    ((op.slotA = .reg → (s.mem.read (s.pc + 1)).toNat < 8) → op.slotB = .reg → 8 ≤ (s.mem.read (s.pc + 2)).toNat →
      step s = .next { s with fault := some (.invalidRegisterIndex (s.mem.read (s.pc + 2))) })

/-- R225: DIV and MOD with a zero divisor clear the run flag and latch DivisionByZero, and change nothing else; and that
is, beside HLT, the only way to clear the run flag. -/
def Obligations.DivisionByZeroHaltsAndLatches : Prop :=
  (∀ (a b : Reg) (s : State), s.reg b = 0 →
    exec (.div a b) s = .next { s with fault := some .divisionByZero, running := false } ∧
    exec (.mod a b) s = .next { s with fault := some .divisionByZero, running := false }) ∧
  ∀ (i : Instr) (s t : State), exec i s = .next t → s.running = true → t.running = false →
    i = .hlt ∨ ∃ a b, (i = .div a b ∨ i = .mod a b) ∧ s.reg b = 0

/-- R108: the only error an instruction raises once fetch, dispatch and index check have passed is DivisionByZero, from
DIV or MOD with a zero divisor. -/
def Obligations.OnlyDivisionRaisesInExecution : Prop :=
  ∀ (i : Instr) (s t : State), exec i s = .next t → t.fault ≠ s.fault →
    t.fault = some .divisionByZero ∧ ∃ a b, (i = .div a b ∨ i = .mod a b) ∧ s.reg b = 0

/-- R229, R231, R243: a cycle that latches an error changes nothing but the latch, and the run flag for DivisionByZero
alone; pc stays at the raising instruction. The spec's own decision: D14 (log entry 16). -/
def Obligations.ErrorsArePrecise : Prop :=
  ∀ (s t : State) (k : ErrorKind), step s = .next t → s.fault = none → t.fault = some k →
    t = { s with fault := some k, running := if k = .divisionByZero then false else s.running }

/-- R121, R220: every step answers a next state: no instruction is refused and no cycle ends in a fault of the model,
since the errors are latched. The spec's own decision: D14 (log entry 16). R121 is the spec's own inference. That
errors are next states is the model's choice (log entry 5). -/
def Obligations.EveryStepAnswersNextState : Prop := ∀ s : State, ∃ t, step s = .next t

/-- R32: the run flag is true after reset; HLT clears it; only HLT and DivisionByZero do; nothing sets it; the other
errors leave it. The spec's own decisions: D7 (log entry 3), D14 (log entry 16). -/
def Obligations.RunFlagHistory : Prop :=
  State.reset.running = true ∧
  (∀ s : State, ∃ t, exec .hlt s = .next t ∧ t.running = false) ∧
  (∀ s t : State, step s = .next t → s.running = false → t.running = false) ∧
  (∀ s t : State, step s = .next t → s.running = true → t.running = false →
    s.fetchDecode = .ok .hlt ∨ t.fault = some .divisionByZero) ∧
  (∀ (s t : State) (k : ErrorKind), step s = .next t → s.fault = none → t.fault = some k →
    (k = .divisionByZero → t.running = false) ∧ (k ≠ .divisionByZero → t.running = s.running))

/-- R33: the output stream is empty after reset and only grows, by what PRN and PRA emit; and the machine never reads
it: a step from any other stream appends the same events and does the same otherwise. The spec's own decision: D7
(log entry 3). -/
def Obligations.OutputGrowsAndIsNeverRead : Prop :=
  State.reset.out = [] ∧
  ∀ s t : State, step s = .next t →
    ∃ new : List OutEvent, t.out = s.out ++ new ∧
      (new = [] ∨ (∃ a, s.fetchDecode = .ok (.prn a) ∧ new = [.dec (s.reg a)]) ∨
        (∃ a, s.fetchDecode = .ok (.pra a) ∧ new = [.chr (s.reg a)])) ∧
      ∀ o : List OutEvent, step { s with out := o } = .next { t with out := o ++ new }

/-- R109, R110, R118: an instruction outside the control-transfer set that raises no error advances pc by one byte for
the opcode and one for each operand, as the opcode's bits 7:6 count them. The spec's own decisions: D1 (log entry
1), D10 (log entry 9), D23 (log entry 18). -/
def Obligations.SequencerAdvancesByOpcodeLength : Prop :=
  ∀ (i : Instr) (s t : State), exec i s = .next t → i.op.setsPc = false → s.fault = none → t.fault = none →
    t.pc = s.pc + 1 + operandCountOf i.op.opcode

/-! ### Invariants and runs -/

/-- The invariant of Safety.lean (pc at most 256, R26; memory canonical within 0 to 255, R36; the latch consistent,
R104, R222, R223, R225, R243) is kept by every step. The spec's own decisions: D8 (log entry 4), D9 (log entry 8),
D10 (log entry 9), D14 (log entry 16). The canonical form of memory is the model's (log entry 4). -/
def Obligations.StepKeepsInvariant : Prop := ∀ s t : State, s.Inv → step s = .next t → t.Inv

/-- The machine after reset meets the invariant. The spec's own decisions: D7 (log entry 3), D8 (log entry 4). The reset
values are the model's (log entries 2 to 4). -/
def Obligations.ResetMeetsInvariant : Prop := State.reset.Inv

/-- Every image that loads, run for any number of cycles, stays within the invariant (R26, R36, R112, R266). The spec's
own decisions: D7 (log entry 3), D8 (log entry 4), D9 (log entry 8), D10 (log entry 9), D14 (log entry 16), D20 (log
entry 22). -/
def Obligations.InvariantHoldsAfterLoadAndRun : Prop :=
  ∀ (image : List Byte) (s t : State) (k : Nat), State.reset.load image = .ok s → Host.Core.run core k s = .next t → t.Inv

/-- R112, R113: `run` under fuel, which stops asking for cycles once the machine is stopped, is the repetition of the
single step. The spec's own decisions: D19 (log entry 6), D29 (log entry 24). Fuel is the model's (log entry 24). -/
def Obligations.RunIsRepeatedStep : Prop :=
  ∀ (k : Nat) (s : State), runFor k s = Host.Core.run core k s

/-- R39: the values after reset. SP 0xF0 (log entry 2), R0 to R6 and FL zero (log entry 3) and zero memory (log entry 4)
are choices the source does not settle; pc 0 is the source's. The spec's own decisions: D6 (log entry 2), D7 (log
entry 3), D8 (log entry 4). -/
def Obligations.ResetValues : Prop :=
  State.reset.sp = 0xF0 ∧ (∀ r : Reg, r ≠ .r7 → State.reset.reg r = 0x00) ∧ State.reset.pc = 0 ∧
  State.reset.fl = 0x00 ∧ State.reset.running = true ∧ State.reset.fault = none ∧ State.reset.out = [] ∧
  ∀ a : Nat, State.reset.mem.read a = 0x00

/-- R266, R267: a load at origin 0 of at most 256 bytes puts byte `i` at address `i` and changes no other cell and
nothing else; a longer image is refused with ProgramTooLarge. The spec's own decision: D20 (log entry 22). -/
def Obligations.LoadPlacesImageOrRefuses : Prop :=
  ∀ (s : State) (image : List Byte),
    (image.length ≤ 256 → ∃ t, s.load image = .ok t ∧
      (∀ (i : Nat) (h : i < image.length), t.mem.read i = image[i]) ∧
      (∀ a, image.length ≤ a → t.mem.read a = s.mem.read a) ∧
      t.regs = s.regs ∧ t.pc = s.pc ∧ t.fl = s.fl ∧ SameControl s t) ∧
    (256 < image.length → s.load image = .error .programTooLarge)

/-! ### Memory -/

/-- R52, R53: the memory port refuses every address above 255 with that address, and never refuses a byte address, for
which it is the plain read or write that LD, ST and the stack use. R53 is the spec's own inference. -/
def Obligations.MemoryPortRangeCheck : Prop :=
  ∀ (s : State) (v : Byte),
    (∀ addr : Byte, s.memRead addr.toNat = .ok (s.load8 addr) ∧ s.memWrite addr.toNat v = .ok (s.store8 addr v)) ∧
    (∀ addr : Nat, 256 ≤ addr → s.memRead addr = .error (.outOfRangeMemoryAccess addr) ∧
      s.memWrite addr v = .error (.outOfRangeMemoryAccess addr))

/-- R36, R51: two memories in canonical form that read the same at every address are the same data. The spec's own
decision: D8 (log entry 4). The canonical form is the model's (log entry 4). -/
def Obligations.CanonicalMemoryIsUnique : Prop :=
  ∀ m n : Memory, m.wf → n.wf → (∀ a, m.read a = n.read a) → m = n

/-- R62: what ST stores is what the very next fetch sees, at whichever of the three window positions the address falls,
and the other window bytes are as before. R62 is the spec's own inference. -/
def Obligations.StoreIsSeenByNextFetch : Prop :=
  ∀ (a b : Reg) (s : State), s.pc ≤ 250 → ∃ t, exec (.st a b) s = .next t ∧ t.pc = s.pc + 3 ∧
    ∃ w, t.fetch = .ok w ∧
      w.ir = (if (s.reg a).toNat = s.pc + 3 then s.reg b else s.mem.read (s.pc + 3)) ∧
      w.opA = (if (s.reg a).toNat = s.pc + 4 then s.reg b else s.mem.read (s.pc + 4)) ∧
      w.opB = (if (s.reg a).toNat = s.pc + 5 then s.reg b else s.mem.read (s.pc + 5))

/-- R53, R66: every instruction leaves every byte of memory as it was, but for the one cell ST, PUSH and CALL store to,
whose address is computed as their meanings compute it. The spec's own decision: D11 (log entry 11). R53 and R165
are the spec's own inferences. -/
def Obligations.MemoryFrame : Prop :=
  ∀ (i : Instr) (s t : State), exec i s = .next t →
    ∀ x : Nat, (∀ addr, i.storesTo s = some addr → x ≠ addr.toNat) → t.mem.read x = s.mem.read x

/-! ### Registers -/

/-- R22: every instruction leaves unchanged every register that the write rows of R22's table do not give it: its
destination, R7 for the stack, R6 for INT, and all eight for IRET. The spec's own decisions: D5 (log entry 13), D18
(log entry 18). R22 is the spec's own inference. -/
def Obligations.RegisterFrame : Prop :=
  ∀ (i : Instr) (s t : State), exec i s = .next t → SameRegsBut s t i.writes

/-- R24, R122, R234: R5 and R6 have no effect of their own. If the instruction about to run does not name the register,
is not IRET (which overwrites both) and, for R6, is not INT, then a step from a state that differs only in that
register differs only in that register. The spec's own decision: D18 (log entry 18). -/
def Obligations.InterruptRegistersAreInert : Prop :=
  ∀ (s t : State) (r : Reg) (v : Byte), r = .r5 ∨ r = .r6 → step s = .next t →
    (∀ i, s.fetchDecode = .ok i → r ∉ i.names ∧ i ≠ .iret ∧ (r = .r6 → ∀ a, i ≠ .int a)) →
    step (s.setReg r v) = .next (t.setReg r v)

/-! ### ALU -/

/-- R131, R133, R134, R135: ADD, SUB and MUL leave in the destination the sum, difference and product of the old operand
values modulo 256, also when both operands are one register; pc moves on by 3 and nothing else changes. The spec's
own decision: D2 (log entry 14). -/
def Obligations.AddSubMulResults : Prop :=
  ∀ (a b : Reg) (s : State),
    (∃ t, exec (.add a b) s = .next t ∧ (t.reg a).toNat = ((s.reg a).toNat + (s.reg b).toNat) % 256 ∧
      t.pc = s.pc + 3 ∧ OnlyRegs s t [a]) ∧
    (∃ t, exec (.sub a b) s = .next t ∧ (t.reg a).toNat = ((s.reg a).toNat + 256 - (s.reg b).toNat) % 256 ∧
      t.pc = s.pc + 3 ∧ OnlyRegs s t [a]) ∧
    (∃ t, exec (.mul a b) s = .next t ∧ (t.reg a).toNat = ((s.reg a).toNat * (s.reg b).toNat) % 256 ∧
      t.pc = s.pc + 3 ∧ OnlyRegs s t [a])

/-- R136, R137: with a divisor that is not zero DIV leaves the unsigned quotient rounded down and MOD the remainder,
which is below the divisor; quotient times divisor plus remainder is the dividend; pc moves on by 3 and nothing else
changes. The spec's own decision: D13 (log entry 14). -/
def Obligations.DivModResults : Prop :=
  ∀ (a b : Reg) (s : State), s.reg b ≠ 0 →
    ∃ t u, exec (.div a b) s = .next t ∧ exec (.mod a b) s = .next u ∧
      (t.reg a).toNat = (s.reg a).toNat / (s.reg b).toNat ∧
      (u.reg a).toNat < (s.reg b).toNat ∧
      (s.reg b).toNat * (t.reg a).toNat + (u.reg a).toNat = (s.reg a).toNat ∧
      t.pc = s.pc + 3 ∧ OnlyRegs s t [a] ∧ u.pc = s.pc + 3 ∧ OnlyRegs s u [a]

/-- R138, R139: INC and DEC add and subtract one modulo 256; pc moves on by 2 and nothing else changes. -/
def Obligations.IncDecResults : Prop :=
  ∀ (a : Reg) (s : State),
    (∃ t, exec (.inc a) s = .next t ∧ (t.reg a).toNat = ((s.reg a).toNat + 1) % 256 ∧ t.pc = s.pc + 2 ∧
      OnlyRegs s t [a]) ∧
    (∃ t, exec (.dec a) s = .next t ∧ (t.reg a).toNat = ((s.reg a).toNat + 255) % 256 ∧ t.pc = s.pc + 2 ∧
      OnlyRegs s t [a])

/-- R140 to R143: AND, OR and XOR combine, and NOT inverts, every bit of the old values; pc moves on by 3, for NOT by 2,
and nothing else changes. -/
def Obligations.BitwiseResults : Prop :=
  ∀ (a b : Reg) (s : State),
    (∃ t, exec (.and a b) s = .next t ∧
      (∀ k < 8, (t.reg a).getLsbD k = ((s.reg a).getLsbD k && (s.reg b).getLsbD k)) ∧ t.pc = s.pc + 3 ∧
      OnlyRegs s t [a]) ∧
    (∃ t, exec (.or a b) s = .next t ∧
      (∀ k < 8, (t.reg a).getLsbD k = ((s.reg a).getLsbD k || (s.reg b).getLsbD k)) ∧ t.pc = s.pc + 3 ∧
      OnlyRegs s t [a]) ∧
    (∃ t, exec (.xor a b) s = .next t ∧
      (∀ k < 8, (t.reg a).getLsbD k = ((s.reg a).getLsbD k != (s.reg b).getLsbD k)) ∧ t.pc = s.pc + 3 ∧
      OnlyRegs s t [a]) ∧
    (∃ t, exec (.not a) s = .next t ∧
      (∀ k < 8, (t.reg a).getLsbD k = !(s.reg a).getLsbD k) ∧ t.pc = s.pc + 2 ∧ OnlyRegs s t [a])

/-- R144, R145: the shift count is the whole source byte. Bit `k` after SHL is the old bit `k - count`, zeros entering
at bit 0; bit `k` after SHR is the old bit `k + count`, zeros entering at bit 7; a count of 8 or more leaves 0. pc
moves on by 3 and nothing else changes. The spec's own decision: D2 (log entry 14). -/
def Obligations.ShiftResults : Prop :=
  ∀ (a b : Reg) (s : State),
    (∃ t, exec (.shl a b) s = .next t ∧
      (∀ k < 8, (t.reg a).getLsbD k =
        (decide ((s.reg b).toNat ≤ k) && (s.reg a).getLsbD (k - (s.reg b).toNat))) ∧
      (8 ≤ (s.reg b).toNat → t.reg a = 0) ∧ t.pc = s.pc + 3 ∧ OnlyRegs s t [a]) ∧
    (∃ t, exec (.shr a b) s = .next t ∧
      (∀ k < 8, (t.reg a).getLsbD k = (s.reg a).getLsbD (k + (s.reg b).toNat)) ∧
      (8 ≤ (s.reg b).toNat → t.reg a = 0) ∧ t.pc = s.pc + 3 ∧ OnlyRegs s t [a])

/-- R132: no ALU instruction but CMP writes FL, and none reads it: from any other FL the instruction does the same and
leaves that FL, a zero result, a wrap-around, a borrow and a division by zero included. -/
def Obligations.AluButCmpIgnoresFlags : Prop :=
  ∀ (i : Instr) (s : State), i.isAluButCmp = true → ∃ t, exec i s = .next t ∧ t.fl = s.fl ∧
    ∀ f : Byte, exec i { s with fl := f } = .next { t with fl := f }

/-- R30, R205: the instructions that write FL are CMP and IRET alone, and IRET does so without reading it. The spec's
own decision: D5 (log entry 13). -/
def Obligations.OnlyCmpAndIretWriteFlags : Prop :=
  (∀ (i : Instr) (s t : State), exec i s = .next t → (∀ a b, i ≠ .cmp a b) → i ≠ .iret → t.fl = s.fl) ∧
  ∀ (s : State) (f : Byte), exec .iret { s with fl := f } = exec .iret s

/-- R146: CMP sets E, G or L by the unsigned comparison and clears the other two, keeps bits 7:3 of FL, writes no
register, and moves pc on by 3; nothing else changes. -/
def Obligations.CompareSetsExactlyOneFlag : Prop :=
  ∀ (a b : Reg) (s : State), ∃ t, exec (.cmp a b) s = .next t ∧
    t.fl.getLsbD 0 = decide ((s.reg a).toNat = (s.reg b).toNat) ∧
    t.fl.getLsbD 1 = decide ((s.reg b).toNat < (s.reg a).toNat) ∧
    t.fl.getLsbD 2 = decide ((s.reg a).toNat < (s.reg b).toNat) ∧
    (∀ k, 3 ≤ k → k < 8 → t.fl.getLsbD k = s.fl.getLsbD k) ∧
    t.pc = s.pc + 3 ∧ SameRegsBut s t [] ∧ SameMem s t ∧ SameControl s t

/-! ### Load, store, stack -/

/-- R162, R163, R74: LDI leaves its immediate in the destination and LD the byte at the address its second register
held; pc moves on by 3 and nothing else changes. -/
def Obligations.LoadResults : Prop :=
  ∀ (a b : Reg) (imm : Byte) (s : State),
    (∃ t, exec (.ldi a imm) s = .next t ∧ t.reg a = imm ∧ t.pc = s.pc + 3 ∧ OnlyRegs s t [a]) ∧
    (∃ t, exec (.ld a b) s = .next t ∧ t.reg a = s.mem.read (s.reg b).toNat ∧ t.pc = s.pc + 3 ∧ OnlyRegs s t [a])

/-- R164: ST leaves the second register's value at the address in the first; no other cell, no register and no flag
changes, and pc moves on by 3. -/
def Obligations.StoreResult : Prop :=
  ∀ (a b : Reg) (s : State), ∃ t, exec (.st a b) s = .next t ∧ t.mem.read (s.ea a).toNat = s.reg b ∧
    SameMemBut s t (s.ea a) ∧ t.pc = s.pc + 3 ∧ SameRegsBut s t [] ∧ t.fl = s.fl ∧ SameControl s t

/-- R160, R165: PUSH decrements R7 modulo 256 and stores the register, read after the decrement, at the new R7; no other
cell or register and no flag changes, and pc moves on by 2. The spec's own decisions: D11 (log entry 11), D25 (log
entry 17). R165 is the spec's own inference. -/
def Obligations.PushResult : Prop :=
  ∀ (a : Reg) (s : State), ∃ t, exec (.push a) s = .next t ∧ t.sp = s.pushAddr ∧
    t.sp.toNat = (s.sp.toNat + 255) % 256 ∧
    t.mem.read s.pushAddr.toNat = (if a = .r7 then s.pushAddr else s.reg a) ∧
    SameMemBut s t s.pushAddr ∧ SameRegsBut s t [.r7] ∧ t.pc = s.pc + 2 ∧ t.fl = s.fl ∧ SameControl s t

/-- R161, R166: POP loads the register from the cell R7 names and increments R7 modulo 256; POP R7 leaves the popped
byte plus one; memory and flags do not change, and pc moves on by 2. The spec's own decisions: D11 (log entry 11),
D25 (log entry 17). R166 is the spec's own inference. -/
def Obligations.PopResult : Prop :=
  ∀ (a : Reg) (s : State), ∃ t, exec (.pop a) s = .next t ∧
    (a ≠ .r7 → t.reg a = s.mem.read s.sp.toNat ∧ t.sp.toNat = (s.sp.toNat + 1) % 256) ∧
    (a = .r7 → t.sp.toNat = ((s.mem.read s.sp.toNat).toNat + 1) % 256) ∧
    t.pc = s.pc + 2 ∧ OnlyRegs s t [a, .r7]

/-- R166: PUSH then POP into the same register, with whatever ran between leaving R7 and the pushed cell as PUSH left
them, restores the register and R7; for every register but R7, and also when R7 wraps. The spec's own decision: D11
(log entry 11). R166 is the spec's own inference. -/
def Obligations.PushThenPopRestores : Prop :=
  ∀ (a : Reg) (s t u : State), a ≠ .r7 → exec (.push a) s = .next t → u.sp = t.sp →
    u.mem.read t.sp.toNat = t.mem.read t.sp.toNat →
    ∃ v, exec (.pop a) u = .next v ∧ v.reg a = s.reg a ∧ v.sp = s.sp

/-! ### Control transfer -/

/-- R180, R182, R275: JMP sets pc to the whole register value and changes nothing else; a jump to its own address leaves
the machine exactly as it was, so it hangs. R275 is the spec's own inference. -/
def Obligations.JumpTakesRegisterAsTarget : Prop :=
  ∀ (a : Reg) (s : State),
    exec (.jmp a) s = .next { s with pc := (s.reg a).toNat } ∧
    ((s.reg a).toNat = s.pc → exec (.jmp a) s = .next s)

/-- R181, R183 to R188: each conditional jump is taken by its test on FL, on every FL value; taken, pc is the register's
value, else it moves on by 2; nothing else changes. The tests are the spec's decision D4 (log entry 12). The spec's
own decision: D4 (log entry 12). -/
def Obligations.ConditionalJumpTests : Prop :=
  ∀ (a : Reg) (s : State),
    exec (.jeq a) s = .next { s with pc := if s.fl &&& 0b001#8 ≠ 0 then (s.reg a).toNat else s.pc + 2 } ∧
    exec (.jne a) s = .next { s with pc := if s.fl &&& 0b001#8 = 0 then (s.reg a).toNat else s.pc + 2 } ∧
    exec (.jgt a) s = .next { s with pc := if s.fl &&& 0b010#8 ≠ 0 then (s.reg a).toNat else s.pc + 2 } ∧
    exec (.jge a) s = .next { s with pc := if s.fl &&& 0b011#8 ≠ 0 then (s.reg a).toNat else s.pc + 2 } ∧
    exec (.jlt a) s = .next { s with pc := if s.fl &&& 0b100#8 ≠ 0 then (s.reg a).toNat else s.pc + 2 } ∧
    exec (.jle a) s = .next { s with pc := if s.fl &&& 0b101#8 ≠ 0 then (s.reg a).toNat else s.pc + 2 }

/-- R146, R181: after `CMP Ra,Rb` the six jumps are taken by the unsigned order of the two values, and pc otherwise ends
after both instructions. The spec's own decision: D4 (log entry 12). -/
def Obligations.JumpsAfterCompare : Prop :=
  ∀ (a b c : Reg) (s t : State), exec (.cmp a b) s = .next t →
    exec (.jeq c) t = .next { t with pc := if s.reg a = s.reg b then (s.reg c).toNat else s.pc + 5 } ∧
    exec (.jne c) t = .next { t with pc := if s.reg a ≠ s.reg b then (s.reg c).toNat else s.pc + 5 } ∧
    exec (.jgt c) t = .next { t with pc := if s.reg b < s.reg a then (s.reg c).toNat else s.pc + 5 } ∧
    exec (.jge c) t = .next { t with pc := if s.reg b ≤ s.reg a then (s.reg c).toNat else s.pc + 5 } ∧
    exec (.jlt c) t = .next { t with pc := if s.reg a < s.reg b then (s.reg c).toNat else s.pc + 5 } ∧
    exec (.jle c) t = .next { t with pc := if s.reg a ≤ s.reg b then (s.reg c).toNat else s.pc + 5 }

/-- R189: CALL, anywhere a cycle can execute it, decrements R7 modulo 256, stores the address after its operand there,
and sets pc to the register's value, which for R7 is the decremented pointer; nothing else changes. The spec's own
decisions: D11 (log entry 11), D25 (log entry 17). -/
def Obligations.CallResult : Prop :=
  ∀ (a : Reg) (s : State), s.pc ≤ 253 → ∃ t, exec (.call a) s = .next t ∧ t.sp = s.pushAddr ∧
    t.sp.toNat = (s.sp.toNat + 255) % 256 ∧ (t.mem.read s.pushAddr.toNat).toNat = s.pc + 2 ∧
    t.pc = (if a = .r7 then s.pushAddr.toNat else (s.reg a).toNat) ∧
    SameMemBut s t s.pushAddr ∧ SameRegsBut s t [.r7] ∧ t.fl = s.fl ∧ SameControl s t

/-- R190: RET sets pc to the byte at R7 and increments R7 modulo 256; nothing else changes. The spec's own decision: D11
(log entry 11). -/
def Obligations.ReturnResult : Prop :=
  ∀ s : State, ∃ t, exec .ret s = .next t ∧ t.pc = (s.mem.read s.sp.toNat).toNat ∧
    t.sp.toNat = (s.sp.toNat + 1) % 256 ∧ OnlyRegs s t [.r7]

/-- R189, R190: a RET reached with R7 and the pushed cell as the CALL left them continues after the CALL's operand, with
R7 as before the CALL. The spec's own decision: D11 (log entry 11). -/
def Obligations.CallThenReturnResumes : Prop :=
  ∀ (a : Reg) (s t u : State), s.pc ≤ 253 → exec (.call a) s = .next t → u.sp = t.sp →
    u.mem.read t.sp.toNat = t.mem.read t.sp.toNat →
    ∃ v, exec .ret u = .next v ∧ v.pc = s.pc + 2 ∧ v.sp = s.sp

/-! ### System -/

/-- R200, R201: HLT clears the run flag, latches no error, and moves pc on by 1; NOP only moves pc on by 1. -/
def Obligations.HaltAndNopResults : Prop :=
  ∀ s : State,
    (∃ t, exec .hlt s = .next t ∧ t.running = false ∧ t.fault = s.fault ∧ t.pc = s.pc + 1 ∧ SameRegsBut s t [] ∧
      SameMem s t ∧ t.fl = s.fl ∧ t.out = s.out) ∧
    (∃ t, exec .nop s = .next t ∧ t.pc = s.pc + 1 ∧ OnlyRegs s t [])

/-- R202, R203: PRN appends a decimal event and PRA a character event with the register's value; pc moves on by 2 and
nothing else changes. The spec's own decision: D17 (log entry 20). -/
def Obligations.OutputResults : Prop :=
  ∀ (a : Reg) (s : State),
    (∃ t, exec (.prn a) s = .next t ∧ t.out = s.out ++ [.dec (s.reg a)] ∧ t.pc = s.pc + 2 ∧ SameRegsBut s t [] ∧
      SameMem s t ∧ t.fl = s.fl ∧ t.running = s.running ∧ t.fault = s.fault) ∧
    (∃ t, exec (.pra a) s = .next t ∧ t.out = s.out ++ [.chr (s.reg a)] ∧ t.pc = s.pc + 2 ∧ SameRegsBut s t [] ∧
      SameMem s t ∧ t.fl = s.fl ∧ t.running = s.running ∧ t.fault = s.fault)

/-- R202, R203: a decimal event's text is the value's decimal digits, at least one, without a leading zero unless the
value is 0, then U+000A; a character event's text is the one character of that code, for codes below 128. The spec's
own decision: D17 (log entry 20). -/
def Obligations.OutputText : Prop :=
  (∀ v : Byte, ∃ ds : List Nat, (∀ d ∈ ds, d < 10) ∧ ds ≠ [] ∧ (ds.head? = some 0 → ds = [0]) ∧
    ds.foldl (fun n d => 10 * n + d) 0 = v.toNat ∧
    OutEvent.text (.dec v) = ds.map (fun d => Char.ofNat (48 + d)) ++ [Char.ofNat 10]) ∧
  ∀ v : Byte, v.toNat < 128 → OutEvent.text (.chr v) = [Char.ofNat v.toNat]

/-- R204, R234: INT sets bit `x[a]` of R6 and keeps the others; a number of 8 or more sets none; pc moves on by 2 and
nothing else changes, whatever R5 and R6 hold. The spec's own decisions: D12 (log entry 15), D18, D23 (log entry
18). -/
def Obligations.InterruptSetsOneBit : Prop :=
  ∀ (a : Reg) (s : State), ∃ t, exec (.int a) s = .next t ∧
    (∀ k < 8, (t.reg .r6).getLsbD k = ((s.reg .r6).getLsbD k || decide ((s.reg a).toNat = k))) ∧
    (8 ≤ (s.reg a).toNat → t.reg .r6 = s.reg .r6) ∧ t.pc = s.pc + 2 ∧ OnlyRegs s t [.r6]

/-- R205: IRET restores R6 down to R0, FL and pc from the nine bytes at R7 and up, addresses modulo 256, and R7 ends
nine higher; memory, run flag, latch and output do not change. The spec's own decisions: D5 (log entry 13), D11 (log
entry 11). -/
def Obligations.InterruptReturnRestoresFrame : Prop :=
  ∀ s : State, ∃ t, exec .iret s = .next t ∧
    t.reg .r6 = s.mem.read s.sp.toNat ∧
    t.reg .r5 = s.mem.read ((s.sp.toNat + 1) % 256) ∧
    t.reg .r4 = s.mem.read ((s.sp.toNat + 2) % 256) ∧
    t.reg .r3 = s.mem.read ((s.sp.toNat + 3) % 256) ∧
    t.reg .r2 = s.mem.read ((s.sp.toNat + 4) % 256) ∧
    t.reg .r1 = s.mem.read ((s.sp.toNat + 5) % 256) ∧
    t.reg .r0 = s.mem.read ((s.sp.toNat + 6) % 256) ∧
    t.fl = s.mem.read ((s.sp.toNat + 7) % 256) ∧
    t.pc = (s.mem.read ((s.sp.toNat + 8) % 256)).toNat ∧
    t.sp.toNat = (s.sp.toNat + 9) % 256 ∧ SameMem s t ∧ SameControl s t
end

