-- ==== Sys2Proof/Laws/Arith.lean ====
section
/-! SUPPORT. What `trunc8` and the stack pointer's arithmetic are, as numbers modulo 256 (R9, R131, R160, R161). -/

namespace Sys2Proof.Machine

theorem toNat_lt (v : Byte) : v.toNat < 256 := v.isLt

/-- `trunc8` of a natural number is its value modulo 256. -/
theorem trunc8_natCast (n : Nat) : (trunc8 (n : Int)).toNat = n % 256 := by
  unfold trunc8
  rw [BitVec.toNat_ofInt]
  omega

/-- `trunc8` of any integer is its remainder modulo 256, never negative. -/
theorem trunc8_toNat (n : Int) : ((trunc8 n).toNat : Int) = n % 256 := by
  unfold trunc8
  rw [BitVec.toNat_ofInt]
  omega

/-- `trunc8` keeps a byte as it is. -/
@[simp] theorem trunc8_toNat_cast (v : Byte) : trunc8 (v.toNat : Int) = v := by
  apply BitVec.eq_of_toNat_eq
  rw [trunc8_natCast]
  exact Nat.mod_eq_of_lt v.isLt

/-- A push stores one below the stack pointer, modulo 256 (R160). -/
theorem State.pushAddr_toNat (s : State) : s.pushAddr.toNat = (s.sp.toNat + 255) % 256 := by
  have h := trunc8_toNat ((s.sp.toNat : Int) - 1)
  have hs := s.sp.isLt
  unfold State.pushAddr
  omega

/-- A pop moves the stack pointer up by one, modulo 256 (R161). -/
theorem State.incSp_sp_toNat (s : State) : s.incSp.sp.toNat = (s.sp.toNat + 1) % 256 := by
  show (trunc8 ((s.sp.toNat : Int) + 1)).toNat = _
  have h := trunc8_toNat ((s.sp.toNat : Int) + 1)
  omega

/-- Incrementing after decrementing gives the stack pointer back (R64). -/
theorem trunc8_pushAddr_add_one (s : State) : trunc8 ((s.pushAddr.toNat : Int) + 1) = s.sp := by
  apply BitVec.eq_of_toNat_eq
  have h := trunc8_toNat ((s.pushAddr.toNat : Int) + 1)
  have h2 := s.pushAddr_toNat
  have hs := s.sp.isLt
  omega

end Sys2Proof.Machine
end

