-- ==== Sys2Proof/Laws/Decode.lean ====
section
/-! SUPPORT. The decoder's pieces: lookup, register operands, index check. -/

namespace Sys2Proof

theorem Op.mem_all (op : Op) : op ∈ Op.all := by cases op <;> decide

/-- What a lookup finds has the opcode that was looked up. -/
theorem lookupWith_sound {m : Op → Byte} {ir : Byte} {op : Op} (h : lookupWith m ir = some op) : m op = ir := by
  simpa using List.find?_some h

/-- A lookup fails exactly when no mnemonic has the opcode (R78). -/
theorem lookupWith_none {m : Op → Byte} {ir : Byte} : lookupWith m ir = none ↔ ∀ op, m op ≠ ir := by
  constructor
  · intro h op
    simpa using List.find?_eq_none.mp h op op.mem_all
  · intro h
    exact List.find?_eq_none.mpr fun op _ => by simpa using h op

/-- Under an injective map each opcode finds its own mnemonic (R75). -/
theorem lookupWith_of_injective {m : Op → Byte} (inj : ∀ p q, m p = m q → p = q) (op : Op) :
    lookupWith m (m op) = some op := by
  cases h : lookupWith m (m op) with
  | none => exact absurd rfl (lookupWith_none.mp h op)
  | some p => rw [inj p op (lookupWith_sound h)]

@[simp] theorem Reg.ofByte?_toByte (r : Reg) : Reg.ofByte? r.toByte = some r := by cases r <;> rfl

@[simp] theorem regOperand_toByte (r : Reg) : regOperand r.toByte = .ok r := by cases r <;> rfl

theorem Reg.toByte_lt (r : Reg) : r.toByte.toNat < 8 := by cases r <;> decide

/-- A byte below 8 is a register index, and it is the byte of that register (R73). -/
theorem regOperand_of_lt {v : Byte} (h : v.toNat < 8) : ∃ r, regOperand v = .ok r ∧ r.toByte = v := by
  have hv : v = BitVec.ofNat 8 v.toNat := by simp
  generalize hn : v.toNat = n at h hv
  subst hv
  interval_cases n <;> exact ⟨_, rfl, rfl⟩

/-- A byte of 8 or more is no register index (R73). -/
theorem regOperand_of_ge {v : Byte} (h : 8 ≤ v.toNat) : regOperand v = .error (.invalidRegisterIndex v) := by
  unfold regOperand Reg.ofByte?
  split
  · next hr => split at hr <;> first | omega | cases hr
  · rfl

/-- Each operand byte is a register's byte or is refused (R73). -/
theorem regOperand_cases (v : Byte) :
    (∃ r, regOperand v = .ok r ∧ r.toByte = v) ∨ (8 ≤ v.toNat ∧ regOperand v = .error (.invalidRegisterIndex v)) := by
  by_cases h : v.toNat < 8
  · exact .inl (regOperand_of_lt h)
  · exact .inr ⟨by omega, regOperand_of_ge (by omega)⟩

/-- One register operand: what the check answers. -/
theorem oneReg_ok {mk : Reg → Instr} {v : Byte} {i : Instr} (h : oneReg mk v = .ok i) :
    ∃ r : Reg, r.toByte = v ∧ i = mk r := by
  rcases regOperand_cases v with ⟨r, hr, hv⟩ | ⟨-, hr⟩
  · simp only [oneReg, hr, Except.ok.injEq] at h
    exact ⟨r, hv, h.symm⟩
  · simp [oneReg, hr] at h

/-- Two register operands: what the checks answer. -/
theorem twoRegs_ok {mk : Reg → Reg → Instr} {v w : Byte} {i : Instr} (h : twoRegs mk v w = .ok i) :
    ∃ a b : Reg, a.toByte = v ∧ b.toByte = w ∧ i = mk a b := by
  rcases regOperand_cases v with ⟨a, ha, hv⟩ | ⟨-, ha⟩
  · rcases regOperand_cases w with ⟨b, hb, hw⟩ | ⟨-, hb⟩
    · simp only [twoRegs, ha, hb, Except.ok.injEq] at h
      exact ⟨a, b, hv, hw, h.symm⟩
    · simp [twoRegs, ha, hb] at h
  · simp [twoRegs, ha] at h

/-- An error of the index check is about a byte of 8 or more. -/
theorem assemble_error {r : Raw} {e : DecodeError} (h : assemble r = .error e) :
    ∃ v : Byte, 8 ≤ v.toNat ∧ e = .invalidRegisterIndex v := by
  obtain ⟨op, va, vb⟩ := r
  rcases regOperand_cases va with ⟨a, ha, -⟩ | ⟨hva, ha⟩ <;>
    rcases regOperand_cases vb with ⟨b, hb, -⟩ | ⟨hvb, hb⟩ <;>
    cases op <;> simp [assemble, oneReg, twoRegs, ha, hb] at h <;> subst h <;>
    exact ⟨_, by assumption, rfl⟩

/-- Every instruction passes the index check: its register operands are registers (R73). -/
theorem Instr.wellFormed (i : Instr) : i.WellFormed := by
  cases i <;> simp [Instr.WellFormed, Raw.WellFormed, Raw.badIndex?, Instr.toRaw, Op.slotA, Op.slotB, Slot.accepts,
    Reg.toByte_lt]

/-- A mnemonic has at most two operands (R6). -/
theorem Op.operandCount_le (op : Op) : op.operandCount ≤ 2 := by cases op <;> decide

/-- The first byte of an instruction is the opcode of its mnemonic (R70). -/
theorem encode_head (i : Instr) : (encode i).head? = some i.op.opcode := by
  unfold encode encodeWith
  rw [Nat.add_comm]
  rfl

/-- An instruction has one byte more than operands (R70). -/
theorem encode_length (i : Instr) : (encode i).length = 1 + i.op.operandCount := by
  have h := i.op.operandCount_le
  simp only [encode, encodeWith, List.length_take, List.length_cons, List.length_nil]
  omega

end Sys2Proof
end

