-- ==== Sys2Proof/Laws/State.lean ====
section
/-! SUPPORT. One lemma per field per update, so that no proof unfolds a record update. -/

namespace Sys2Proof.Machine

@[simp] theorem Regs.get_set (rs : Regs) (r q : Reg) (v : Byte) :
    (rs.set r v).get q = if q = r then v else rs.get q := by
  cases r <;> cases q <;> rfl

theorem Regs.ext_get {rs qs : Regs} (h : ∀ r, rs.get r = qs.get r) : rs = qs := by
  cases rs; cases qs
  have h0 := h .r0; have h1 := h .r1; have h2 := h .r2; have h3 := h .r3
  have h4 := h .r4; have h5 := h .r5; have h6 := h .r6; have h7 := h .r7
  simp only [Regs.get] at *
  simp [*]

theorem Regs.set_comm (rs : Regs) {r q : Reg} (h : r ≠ q) (v w : Byte) :
    (rs.set r v).set q w = (rs.set q w).set r v := by
  cases r <;> cases q <;> first | rfl | exact absurd rfl h

@[simp] theorem Regs.set_set (rs : Regs) (r : Reg) (v w : Byte) : (rs.set r v).set r w = rs.set r w := by
  cases r <;> rfl

section Fields
variable (s : State) (r q : Reg) (v addr : Byte) (n : Nat) (e : OutEvent) (k : ErrorKind)

@[simp] theorem State.reg_setReg : (s.setReg r v).reg q = if q = r then v else s.reg q := by
  simp [State.reg, State.setReg]
@[simp] theorem State.setReg_mem : (s.setReg r v).mem = s.mem := rfl
@[simp] theorem State.setReg_pc : (s.setReg r v).pc = s.pc := rfl
@[simp] theorem State.setReg_fl : (s.setReg r v).fl = s.fl := rfl
@[simp] theorem State.setReg_running : (s.setReg r v).running = s.running := rfl
@[simp] theorem State.setReg_fault : (s.setReg r v).fault = s.fault := rfl
@[simp] theorem State.setReg_out : (s.setReg r v).out = s.out := rfl

@[simp] theorem State.store8_reg : (s.store8 addr v).reg r = s.reg r := rfl
@[simp] theorem State.store8_mem : (s.store8 addr v).mem = s.mem.write addr.toNat v := rfl
@[simp] theorem State.store8_pc : (s.store8 addr v).pc = s.pc := rfl
@[simp] theorem State.store8_fl : (s.store8 addr v).fl = s.fl := rfl
@[simp] theorem State.store8_running : (s.store8 addr v).running = s.running := rfl
@[simp] theorem State.store8_fault : (s.store8 addr v).fault = s.fault := rfl
@[simp] theorem State.store8_out : (s.store8 addr v).out = s.out := rfl

@[simp] theorem State.jumpTo_reg : (s.jumpTo v).reg r = s.reg r := rfl
@[simp] theorem State.jumpTo_mem : (s.jumpTo v).mem = s.mem := rfl
@[simp] theorem State.jumpTo_pc : (s.jumpTo v).pc = v.toNat := rfl
@[simp] theorem State.jumpTo_fl : (s.jumpTo v).fl = s.fl := rfl
@[simp] theorem State.jumpTo_running : (s.jumpTo v).running = s.running := rfl
@[simp] theorem State.jumpTo_fault : (s.jumpTo v).fault = s.fault := rfl
@[simp] theorem State.jumpTo_out : (s.jumpTo v).out = s.out := rfl

@[simp] theorem State.advance_reg : (s.advance n).reg r = s.reg r := rfl
@[simp] theorem State.advance_mem : (s.advance n).mem = s.mem := rfl
@[simp] theorem State.advance_pc : (s.advance n).pc = s.pc + n := rfl
@[simp] theorem State.advance_fl : (s.advance n).fl = s.fl := rfl
@[simp] theorem State.advance_running : (s.advance n).running = s.running := rfl
@[simp] theorem State.advance_fault : (s.advance n).fault = s.fault := rfl
@[simp] theorem State.advance_out : (s.advance n).out = s.out := rfl

@[simp] theorem State.setFl_reg : (s.setFl v).reg r = s.reg r := rfl
@[simp] theorem State.setFl_mem : (s.setFl v).mem = s.mem := rfl
@[simp] theorem State.setFl_pc : (s.setFl v).pc = s.pc := rfl
@[simp] theorem State.setFl_fl : (s.setFl v).fl = v := rfl
@[simp] theorem State.setFl_running : (s.setFl v).running = s.running := rfl
@[simp] theorem State.setFl_fault : (s.setFl v).fault = s.fault := rfl
@[simp] theorem State.setFl_out : (s.setFl v).out = s.out := rfl

@[simp] theorem State.emit_reg : (s.emit e).reg r = s.reg r := rfl
@[simp] theorem State.emit_mem : (s.emit e).mem = s.mem := rfl
@[simp] theorem State.emit_pc : (s.emit e).pc = s.pc := rfl
@[simp] theorem State.emit_fl : (s.emit e).fl = s.fl := rfl
@[simp] theorem State.emit_running : (s.emit e).running = s.running := rfl
@[simp] theorem State.emit_fault : (s.emit e).fault = s.fault := rfl
@[simp] theorem State.emit_out : (s.emit e).out = s.out ++ [e] := rfl

@[simp] theorem State.halt_reg : s.halt.reg r = s.reg r := rfl
@[simp] theorem State.halt_mem : s.halt.mem = s.mem := rfl
@[simp] theorem State.halt_pc : s.halt.pc = s.pc := rfl
@[simp] theorem State.halt_fl : s.halt.fl = s.fl := rfl
@[simp] theorem State.halt_running : s.halt.running = false := rfl
@[simp] theorem State.halt_fault : s.halt.fault = s.fault := rfl
@[simp] theorem State.halt_out : s.halt.out = s.out := rfl

@[simp] theorem State.raise_reg : (s.raise k).reg r = s.reg r := rfl
@[simp] theorem State.raise_mem : (s.raise k).mem = s.mem := rfl
@[simp] theorem State.raise_pc : (s.raise k).pc = s.pc := rfl
@[simp] theorem State.raise_fl : (s.raise k).fl = s.fl := rfl
@[simp] theorem State.raise_running :
    (s.raise k).running = if k = .divisionByZero then false else s.running := rfl
@[simp] theorem State.raise_fault : (s.raise k).fault = some k := rfl
@[simp] theorem State.raise_out : (s.raise k).out = s.out := rfl

@[simp] theorem State.decSp_sp : s.decSp.sp = s.pushAddr := rfl
@[simp] theorem State.incSp_sp : s.incSp.sp = trunc8 ((s.sp.toNat : Int) + 1) := rfl
@[simp] theorem State.decSp_reg : s.decSp.reg q = if q = .r7 then s.pushAddr else s.reg q := by
  simp [State.decSp]
@[simp] theorem State.incSp_reg :
    s.incSp.reg q = if q = .r7 then trunc8 ((s.sp.toNat : Int) + 1) else s.reg q := by
  simp [State.incSp]
@[simp] theorem State.decSp_mem : s.decSp.mem = s.mem := rfl
@[simp] theorem State.decSp_pc : s.decSp.pc = s.pc := rfl
@[simp] theorem State.decSp_fl : s.decSp.fl = s.fl := rfl
@[simp] theorem State.decSp_running : s.decSp.running = s.running := rfl
@[simp] theorem State.decSp_fault : s.decSp.fault = s.fault := rfl
@[simp] theorem State.decSp_out : s.decSp.out = s.out := rfl
@[simp] theorem State.incSp_mem : s.incSp.mem = s.mem := rfl
@[simp] theorem State.incSp_pc : s.incSp.pc = s.pc := rfl
@[simp] theorem State.incSp_fl : s.incSp.fl = s.fl := rfl
@[simp] theorem State.incSp_running : s.incSp.running = s.running := rfl
@[simp] theorem State.incSp_fault : s.incSp.fault = s.fault := rfl
@[simp] theorem State.incSp_out : s.incSp.out = s.out := rfl
end Fields

/-- R7 is where the stack pointer lives (R23). -/
theorem State.reg_r7 (s : State) : s.reg .r7 = s.sp := rfl

/-- Two states are equal when every piece of state is. -/
theorem State.ext_parts {s t : State} (hr : ∀ r, s.reg r = t.reg r) (hm : s.mem = t.mem) (hp : s.pc = t.pc)
    (hf : s.fl = t.fl) (hrun : s.running = t.running) (hfault : s.fault = t.fault) (hout : s.out = t.out) : s = t := by
  cases s; cases t
  simp only at hm hp hf hrun hfault hout
  simp only [State.mk.injEq]
  exact ⟨hm, Regs.ext_get hr, hp, hf, hrun, hfault, hout⟩

end Sys2Proof.Machine
end

