-- ==== Sys2Proof/Laws/Stack.lean ====
section
/-! SUPPORT. What a push and a pop do, field by field (R160, R161). -/

namespace Sys2Proof.Machine

section Fields
variable (s : State) (r q : Reg) (v : Byte)

@[simp] theorem State.push_reg : (s.push v).reg q = if q = .r7 then s.pushAddr else s.reg q := by
  simp [State.push]
@[simp] theorem State.push_sp : (s.push v).sp = s.pushAddr := rfl
@[simp] theorem State.push_mem : (s.push v).mem = s.mem.write s.pushAddr.toNat v := rfl
@[simp] theorem State.push_pc : (s.push v).pc = s.pc := rfl
@[simp] theorem State.push_fl : (s.push v).fl = s.fl := rfl
@[simp] theorem State.push_running : (s.push v).running = s.running := rfl
@[simp] theorem State.push_fault : (s.push v).fault = s.fault := rfl
@[simp] theorem State.push_out : (s.push v).out = s.out := rfl

@[simp] theorem State.popReg_reg :
    (s.popReg r).reg q =
      if q = r then s.top else if q = .r7 then trunc8 ((s.sp.toNat : Int) + 1) else s.reg q := by
  simp [State.popReg]
@[simp] theorem State.popReg_mem : (s.popReg r).mem = s.mem := rfl
@[simp] theorem State.popReg_pc : (s.popReg r).pc = s.pc := rfl
@[simp] theorem State.popReg_fl : (s.popReg r).fl = s.fl := rfl
@[simp] theorem State.popReg_running : (s.popReg r).running = s.running := rfl
@[simp] theorem State.popReg_fault : (s.popReg r).fault = s.fault := rfl
@[simp] theorem State.popReg_out : (s.popReg r).out = s.out := rfl

@[simp] theorem State.popFl_reg : s.popFl.reg q = s.incSp.reg q := rfl
@[simp] theorem State.popFl_mem : s.popFl.mem = s.mem := rfl
@[simp] theorem State.popFl_pc : s.popFl.pc = s.pc := rfl
@[simp] theorem State.popFl_fl : s.popFl.fl = s.top := rfl
@[simp] theorem State.popFl_running : s.popFl.running = s.running := rfl
@[simp] theorem State.popFl_fault : s.popFl.fault = s.fault := rfl
@[simp] theorem State.popFl_out : s.popFl.out = s.out := rfl

@[simp] theorem State.popPc_reg : s.popPc.reg q = s.incSp.reg q := rfl
@[simp] theorem State.popPc_mem : s.popPc.mem = s.mem := rfl
@[simp] theorem State.popPc_pc : s.popPc.pc = s.top.toNat := rfl
@[simp] theorem State.popPc_fl : s.popPc.fl = s.fl := rfl
@[simp] theorem State.popPc_running : s.popPc.running = s.running := rfl
@[simp] theorem State.popPc_fault : s.popPc.fault = s.fault := rfl
@[simp] theorem State.popPc_out : s.popPc.out = s.out := rfl
end Fields

/-- A pop into another register moves the stack pointer up by one (R161). -/
theorem State.popReg_sp (s : State) {r : Reg} (h : r ≠ .r7) : (s.popReg r).sp = trunc8 ((s.sp.toNat : Int) + 1) := by
  rw [← State.reg_r7 (s.popReg r), State.popReg_reg, if_neg (Ne.symm h), if_pos rfl]

@[simp] theorem State.popFl_sp (s : State) : s.popFl.sp = trunc8 ((s.sp.toNat : Int) + 1) := rfl

/-- The byte on top is the memory cell the stack pointer names (R161). -/
theorem State.top_eq (s : State) : s.top = s.mem.read s.sp.toNat := rfl

end Sys2Proof.Machine
end

