-- ==== Sys2Proof/Laws/Step.lean ====
section
/-! SUPPORT. What a fetch, an ALU instruction and a step can answer, said once. -/

namespace Sys2Proof.Machine

/-- Within the window a fetch reads the three bytes at pc (R102, R103). -/
theorem State.fetch_ok {s : State} (h : s.pc ≤ 253) :
    s.fetch = .ok ⟨s.mem.read s.pc, s.mem.read (s.pc + 1), s.mem.read (s.pc + 2)⟩ := by
  have h0 : s.pc < Config.memSize := by unfold Config.memSize; omega
  have h1 : s.pc + 1 < Config.memSize := by unfold Config.memSize; omega
  have h2 : s.pc + 2 < Config.memSize := by unfold Config.memSize; omega
  simp [State.fetch, State.memRead, h0, h1, h2]

/-- Outside the window a fetch fails with the first address out of range (R104). -/
theorem State.fetch_error {s : State} (h : 254 ≤ s.pc) :
    s.fetch = .error (.outOfRangeMemoryAccess (max 256 s.pc)) := by
  unfold State.fetch State.memRead Config.memSize
  by_cases h0 : s.pc < 256
  · by_cases h1 : s.pc + 1 < 256
    · have : s.pc = 254 := by omega
      simp [this]
    · have : s.pc = 255 := by omega
      simp [this]
  · have : max 256 s.pc = s.pc := by omega
    simp [h0, this]

/-- What a fetch can answer. -/
theorem State.fetch_cases (s : State) :
    (s.pc ≤ 253 ∧ s.fetch = .ok ⟨s.mem.read s.pc, s.mem.read (s.pc + 1), s.mem.read (s.pc + 2)⟩) ∨
      (254 ≤ s.pc ∧ s.fetch = .error (.outOfRangeMemoryAccess (max 256 s.pc))) := by
  by_cases h : s.pc ≤ 253
  · exact .inl ⟨h, State.fetch_ok h⟩
  · exact .inr ⟨by omega, State.fetch_error (by omega)⟩

/-- An instruction is found only inside the fetch window, and it is what the decoder reads from the bytes at pc. -/
theorem State.fetchDecode_ok {s : State} {i : Instr} :
    s.fetchDecode = .ok i ↔
      s.pc ≤ 253 ∧ decode ⟨s.mem.read s.pc, s.mem.read (s.pc + 1), s.mem.read (s.pc + 2)⟩ = .ok i := by
  unfold State.fetchDecode
  rcases s.fetch_cases with ⟨hpc, h⟩ | ⟨hpc, h⟩
  · rw [h]
    cases hd : decode ⟨s.mem.read s.pc, s.mem.read (s.pc + 1), s.mem.read (s.pc + 2)⟩ <;> simp [hd, hpc]
  · rw [h]
    constructor
    · intro h'; cases h'
    · intro h'; omega

/-- An error of the front end is the range error or the decoder's refusal (R230). -/
theorem State.fetchDecode_error {s : State} {k : ErrorKind} :
    s.fetchDecode = .error k ↔
      (254 ≤ s.pc ∧ k = .outOfRangeMemoryAccess (max 256 s.pc)) ∨
        (s.pc ≤ 253 ∧ ∃ e, decode ⟨s.mem.read s.pc, s.mem.read (s.pc + 1), s.mem.read (s.pc + 2)⟩ = .error e ∧
          k = ErrorKind.ofDecode e) := by
  unfold State.fetchDecode
  rcases s.fetch_cases with ⟨hpc, h⟩ | ⟨hpc, h⟩
  · have hn : ¬ 254 ≤ s.pc := by omega
    rw [h]
    cases hd : decode ⟨s.mem.read s.pc, s.mem.read (s.pc + 1), s.mem.read (s.pc + 2)⟩ <;>
      simp [hd, hpc, hn, eq_comm]
  · have hn : ¬ s.pc ≤ 253 := by omega
    rw [h]
    simp [hpc, hn, eq_comm]

/-- What a step can be: no change, an error of the front end latched, or the instruction at pc (R121). -/
theorem step_cases (s : State) :
    (s.stopped = true ∧ step s = .next s) ∨
      (s.stopped = false ∧ ∃ k, s.fetchDecode = .error k ∧ step s = .next (s.raise k)) ∨
      (s.stopped = false ∧ ∃ i, s.fetchDecode = .ok i ∧ step s = exec i s) := by
  unfold step
  cases hs : s.stopped
  · cases hd : s.fetchDecode with
    | error k => exact .inr (.inl ⟨rfl, k, rfl, rfl⟩)
    | ok i => exact .inr (.inr ⟨rfl, i, rfl, rfl⟩)
  · exact .inl ⟨rfl, rfl⟩

theorem State.stopped_eq_false {s : State} : s.stopped = false ↔ s.running = true ∧ s.fault = none := by
  cases h1 : s.running <;> cases h2 : s.fault <;> simp [State.stopped, h1, h2]

/-- What an ALU instruction can answer: the commit of a result, or a division by zero with no other effect (R116). -/
theorem aluInstr_cases (op : AluOp) (a : Reg) (u v : Byte) (len : Nat) (s : State) :
    (∃ r, aluApply op u v s.fl = .ok r ∧ aluInstr op a u v len s = .next ((s.commitAlu a r).advance len)) ∨
      ((op = .div ∨ op = .mod) ∧ v.toNat = 0 ∧ aluInstr op a u v len s = .next (s.raise .divisionByZero)) := by
  unfold aluInstr
  cases op <;> simp only [aluApply]
  case div => by_cases h : v.toNat = 0 <;> simp [h]
  case mod => by_cases h : v.toNat = 0 <;> simp [h]
  all_goals exact .inl ⟨_, rfl, rfl⟩

/-- Committing an ALU result touches the destination register and FL alone. -/
theorem State.commitAlu_reg (s : State) (a q : Reg) (r : AluResult) :
    (s.commitAlu a r).reg q = if q = a then r.dest.getD (s.reg a) else s.reg q := by
  unfold State.commitAlu
  cases h : r.dest with
  | none => by_cases hq : q = a <;> simp [hq]
  | some v => simp

@[simp] theorem State.commitAlu_fl (s : State) (a : Reg) (r : AluResult) : (s.commitAlu a r).fl = r.fl := by
  unfold State.commitAlu; split <;> rfl
@[simp] theorem State.commitAlu_mem (s : State) (a : Reg) (r : AluResult) : (s.commitAlu a r).mem = s.mem := by
  unfold State.commitAlu; split <;> rfl
@[simp] theorem State.commitAlu_pc (s : State) (a : Reg) (r : AluResult) : (s.commitAlu a r).pc = s.pc := by
  unfold State.commitAlu; split <;> rfl
@[simp] theorem State.commitAlu_running (s : State) (a : Reg) (r : AluResult) :
    (s.commitAlu a r).running = s.running := by
  unfold State.commitAlu; split <;> rfl
@[simp] theorem State.commitAlu_fault (s : State) (a : Reg) (r : AluResult) : (s.commitAlu a r).fault = s.fault := by
  unfold State.commitAlu; split <;> rfl
@[simp] theorem State.commitAlu_out (s : State) (a : Reg) (r : AluResult) : (s.commitAlu a r).out = s.out := by
  unfold State.commitAlu; split <;> rfl

end Sys2Proof.Machine
end

