-- ==== Sys2Proof/Laws/Exec.lean ====
section
/-! SUPPORT. What each instruction answers, one equation each: proofs cite these and do not unfold the meanings. -/

namespace Sys2Proof.Machine

/-- A jump, taken or not, moves pc alone (R180). -/
theorem jumpIf_eq (taken : Bool) (a : Reg) (s : State) :
    jumpIf taken a s = .next { s with pc := if taken then (s.reg a).toNat else s.pc + 2 } := by
  cases taken <;> rfl

section
variable (a b : Reg) (imm : Byte) (s : State)

theorem exec_nop : exec .nop s = .next (s.advance 1) := rfl
theorem exec_hlt : exec .hlt s = .next (s.halt.advance 1) := rfl
theorem exec_ret : exec .ret s = .next s.popPc := rfl
theorem exec_iret : exec .iret s = .next
    (((((((((s.popReg .r6).popReg .r5).popReg .r4).popReg .r3).popReg .r2).popReg .r1).popReg .r0).popFl).popPc) := rfl
theorem exec_push : exec (.push a) s = .next ((s.push (s.decSp.reg a)).advance 2) := rfl
theorem exec_pop : exec (.pop a) s = .next ((s.setReg a s.top).incSp.advance 2) := rfl
theorem exec_prn : exec (.prn a) s = .next ((s.emit (.dec (s.reg a))).advance 2) := rfl
theorem exec_pra : exec (.pra a) s = .next ((s.emit (.chr (s.reg a))).advance 2) := rfl
theorem exec_call :
    exec (.call a) s = .next ((s.push s.returnAddr).jumpTo ((s.push s.returnAddr).reg a)) := rfl
theorem exec_int :
    exec (.int a) s = .next ((s.setReg .r6 (s.reg .r6 ||| interruptBit (s.reg a))).advance 2) := rfl
theorem exec_jmp : exec (.jmp a) s = .next (s.jumpTo (s.reg a)) := rfl
theorem exec_jeq :
    exec (.jeq a) s = .next { s with pc := if condEq s.fl then (s.reg a).toNat else s.pc + 2 } := jumpIf_eq _ a s
theorem exec_jne :
    exec (.jne a) s = .next { s with pc := if condNe s.fl then (s.reg a).toNat else s.pc + 2 } := jumpIf_eq _ a s
theorem exec_jgt :
    exec (.jgt a) s = .next { s with pc := if condGt s.fl then (s.reg a).toNat else s.pc + 2 } := jumpIf_eq _ a s
theorem exec_jlt :
    exec (.jlt a) s = .next { s with pc := if condLt s.fl then (s.reg a).toNat else s.pc + 2 } := jumpIf_eq _ a s
theorem exec_jle :
    exec (.jle a) s = .next { s with pc := if condLe s.fl then (s.reg a).toNat else s.pc + 2 } := jumpIf_eq _ a s
theorem exec_jge :
    exec (.jge a) s = .next { s with pc := if condGe s.fl then (s.reg a).toNat else s.pc + 2 } := jumpIf_eq _ a s
theorem exec_ldi : exec (.ldi a imm) s = .next ((s.setReg a imm).advance 3) := rfl
theorem exec_ld : exec (.ld a b) s = .next ((s.setReg a (s.load8 (s.reg b))).advance 3) := rfl
theorem exec_st : exec (.st a b) s = .next ((s.store8 (s.reg a) (s.reg b)).advance 3) := rfl
theorem exec_inc : exec (.inc a) s = .next ((s.setReg a (aluInc (s.reg a))).advance 2) := rfl
theorem exec_dec : exec (.dec a) s = .next ((s.setReg a (aluDec (s.reg a))).advance 2) := rfl
theorem exec_not : exec (.not a) s = .next ((s.setReg a (aluNot (s.reg a))).advance 2) := rfl
theorem exec_add : exec (.add a b) s = .next ((s.setReg a (aluAdd (s.reg a) (s.reg b))).advance 3) := rfl
theorem exec_sub : exec (.sub a b) s = .next ((s.setReg a (aluSub (s.reg a) (s.reg b))).advance 3) := rfl
theorem exec_mul : exec (.mul a b) s = .next ((s.setReg a (aluMul (s.reg a) (s.reg b))).advance 3) := rfl
theorem exec_and : exec (.and a b) s = .next ((s.setReg a (aluAnd (s.reg a) (s.reg b))).advance 3) := rfl
theorem exec_or : exec (.or a b) s = .next ((s.setReg a (aluOr (s.reg a) (s.reg b))).advance 3) := rfl
theorem exec_xor : exec (.xor a b) s = .next ((s.setReg a (aluXor (s.reg a) (s.reg b))).advance 3) := rfl
theorem exec_shl : exec (.shl a b) s = .next ((s.setReg a (aluShl (s.reg a) (s.reg b))).advance 3) := rfl
theorem exec_shr : exec (.shr a b) s = .next ((s.setReg a (aluShr (s.reg a) (s.reg b))).advance 3) := rfl
theorem exec_cmp : exec (.cmp a b) s = .next ((s.setFl (cmpFlags s.fl (s.reg a) (s.reg b))).advance 3) := rfl
theorem exec_div : exec (.div a b) s =
    if (s.reg b).toNat = 0 then .next (s.raise .divisionByZero)
    else .next ((s.setReg a (aluDiv (s.reg a) (s.reg b))).advance 3) := by
  by_cases h : (s.reg b).toNat = 0
  · rw [if_pos h]; simp [exec, execDiv, aluTwo, aluInstr, aluApply, h]
  · rw [if_neg h]; simp [exec, execDiv, aluTwo, aluInstr, aluApply, h]; rfl
theorem exec_mod : exec (.mod a b) s =
    if (s.reg b).toNat = 0 then .next (s.raise .divisionByZero)
    else .next ((s.setReg a (aluMod (s.reg a) (s.reg b))).advance 3) := by
  by_cases h : (s.reg b).toNat = 0
  · rw [if_pos h]; simp [exec, execMod, aluTwo, aluInstr, aluApply, h]
  · rw [if_neg h]; simp [exec, execMod, aluTwo, aluInstr, aluApply, h]; rfl
end

end Sys2Proof.Machine
end

