-- ==== Sys2Proof/Laws/Memory.lean ====
section
/-! SUPPORT. Memory: a read after a write, and every operation keeps the canonical form. -/

namespace Sys2Proof.Machine

@[simp] theorem Memory.read_nil (a : Nat) : Memory.read [] a = Config.memInit := rfl

theorem Memory.read_erase_same (m : Memory) (a : Nat) : (m.erase a).read a = Config.memInit := by
  induction m with
  | nil => rfl
  | cons c m ih =>
    obtain ⟨k, w⟩ := c
    by_cases h : k = a
    · simpa [Memory.erase, h] using ih
    · simpa [Memory.erase, Memory.read, h] using ih

theorem Memory.read_erase_other (m : Memory) {a b : Nat} (h : b ≠ a) : (m.erase a).read b = m.read b := by
  induction m with
  | nil => rfl
  | cons c m ih =>
    obtain ⟨k, w⟩ := c
    by_cases hk : k = a
    · subst hk
      simpa [Memory.erase, Memory.read, Ne.symm h] using ih
    · by_cases hb : k = b
      · subst hb; simp [Memory.erase, Memory.read, hk]
      · simpa [Memory.erase, Memory.read, hk, hb] using ih

theorem Memory.erase_no_key (m : Memory) (a : Nat) : ∀ c ∈ m.erase a, c.1 ≠ a := by
  intro c hc
  simpa using (List.mem_filter.mp hc).2

theorem Memory.read_insert_same (a : Nat) (v : Byte) (m : Memory) (h : ∀ c ∈ m, c.1 ≠ a) :
    (Memory.insert a v m).read a = v := by
  induction m with
  | nil => simp [Memory.insert, Memory.read]
  | cons c m ih =>
    obtain ⟨k, w⟩ := c
    have hk : k ≠ a := h (k, w) (by simp)
    unfold Memory.insert
    split
    · simp [Memory.read]
    · simpa [Memory.read, hk] using ih fun c hc => h c (by simp [hc])

theorem Memory.read_insert_other (a : Nat) (v : Byte) (m : Memory) {b : Nat} (hb : b ≠ a) :
    (Memory.insert a v m).read b = m.read b := by
  induction m with
  | nil => simp [Memory.insert, Memory.read, Ne.symm hb]
  | cons c m ih =>
    obtain ⟨k, w⟩ := c
    unfold Memory.insert
    split
    · simp [Memory.read, Ne.symm hb]
    · by_cases hk : k = b <;> simp [Memory.read, hk, ih]

/-- A read gives the byte most recently written to that address (R51). -/
@[simp] theorem Memory.read_write_same (m : Memory) (a : Nat) (v : Byte) : (m.write a v).read a = v := by
  unfold Memory.write
  split
  · next h => rw [Memory.read_erase_same, h]
  · exact Memory.read_insert_same a v _ (m.erase_no_key a)

/-- A write leaves every other cell alone (R51). -/
theorem Memory.read_write_other (m : Memory) {a b : Nat} (v : Byte) (h : b ≠ a) :
    (m.write a v).read b = m.read b := by
  unfold Memory.write
  split
  · exact m.read_erase_other h
  · rw [Memory.read_insert_other a v _ h, m.read_erase_other h]

/-- A write, read at any address. -/
theorem Memory.read_write (m : Memory) (a b : Nat) (v : Byte) :
    (m.write a v).read b = if b = a then v else m.read b := by
  split
  · next h => subst h; simp
  · next h => exact m.read_write_other v h

theorem Memory.mem_insert {a : Nat} {v : Byte} {m : Memory} {c : Host.Cell} :
    c ∈ Memory.insert a v m ↔ c = (a, v) ∨ c ∈ m := by
  induction m with
  | nil => simp [Memory.insert]
  | cons d m ih =>
    obtain ⟨k, w⟩ := d
    unfold Memory.insert
    split
    · simp
    · simp only [List.mem_cons, ih]
      exact or_left_comm

theorem Memory.insert_sorted {a : Nat} {v : Byte} {m : Memory} (hs : m.Pairwise fun c d => c.1 < d.1)
    (hk : ∀ c ∈ m, c.1 ≠ a) : (Memory.insert a v m).Pairwise fun c d => c.1 < d.1 := by
  induction m with
  | nil => simp [Memory.insert]
  | cons d m ih =>
    obtain ⟨k, w⟩ := d
    rw [List.pairwise_cons] at hs
    have hka : k ≠ a := hk (k, w) (by simp)
    unfold Memory.insert
    split
    · next hlt =>
      refine List.pairwise_cons.mpr ⟨?_, List.pairwise_cons.mpr hs⟩
      intro c hc
      rcases List.mem_cons.mp hc with rfl | hc
      · exact hlt
      · exact Nat.lt_trans hlt (hs.1 c hc)
    · next hlt =>
      refine List.pairwise_cons.mpr ⟨?_, ih hs.2 fun c hc => hk c (by simp [hc])⟩
      intro c hc
      rcases Memory.mem_insert.mp hc with rfl | hc
      · show k < a
        omega
      · exact hs.1 c hc

/-- Taking a cell out keeps the canonical form. -/
theorem Memory.erase_wf {m : Memory} (h : m.wf) (a : Nat) : (m.erase a).wf :=
  ⟨h.1.filter _, fun c hc => h.2 c (List.mem_filter.mp hc).1⟩

/-- A write within 0 to 255 keeps the canonical form. -/
theorem Memory.write_wf {m : Memory} (h : m.wf) {a : Nat} (ha : a < Config.memSize) (v : Byte) : (m.write a v).wf := by
  unfold Memory.write
  split
  · exact Memory.erase_wf h a
  · next hv =>
    refine ⟨Memory.insert_sorted (Memory.erase_wf h a).1 (m.erase_no_key a), fun c hc => ?_⟩
    rcases Memory.mem_insert.mp hc with rfl | hc
    · exact ⟨ha, hv⟩
    · exact (Memory.erase_wf h a).2 c hc

/-- A store of the machine keeps the canonical form, whatever the address byte (R53). -/
theorem Memory.write_byte_wf {m : Memory} (h : m.wf) (addr v : Byte) : (m.write addr.toNat v).wf :=
  Memory.write_wf h addr.isLt v

theorem Memory.place_wf {m : Memory} (h : m.wf) (a : Nat) (v : Byte) : (m.place a v).wf := by
  unfold Memory.place
  split
  · next ha => exact Memory.write_wf h ha v
  · exact h

/-- Placing an instruction for the next fetch keeps the canonical form. -/
theorem State.placeWindow_wf {s : State} (h : s.mem.wf) (w : Window) : (s.placeWindow w).mem.wf :=
  Memory.place_wf (Memory.place_wf (Memory.place_wf h _ _) _ _) _ _

/-- A load that fits keeps the canonical form (R266). -/
theorem Memory.writeImage_wf {m : Memory} (h : m.wf) (a : Nat) (image : List Byte)
    (hfit : a + image.length ≤ Config.memSize) : (m.writeImage a image).wf := by
  induction image generalizing m a with
  | nil => exact h
  | cons v vs ih =>
    simp only [List.length_cons] at hfit
    exact ih (Memory.write_wf h (by omega) v) (a + 1) (by omega)

/-- Memory after reset is in canonical form. -/
theorem State.reset_mem_wf : State.reset.mem.wf := by decide

end Sys2Proof.Machine
end

