-- ==== Sys2Proof/Laws/PerInstr.lean ====
section
/-! SUPPORT. The per-instruction family `EncodedForm`: what an instruction's bytes look like (R70, R73, R77). -/

namespace Sys2Proof

/-- The form of an instruction's bytes: the opcode of its mnemonic comes first, one byte follows for each operand slot, and
the operand bytes fit their slots (R70, R73, R77). -/
def Laws.EncodedForm.Statement (i : Instr) : Prop :=
  (encode i).head? = some i.op.opcode ∧ (encode i).length = 1 + i.op.operandCount ∧ i.WellFormed

/-- The three parts hold for every instruction alike. -/
theorem Laws.EncodedForm.of_instr (i : Instr) : Laws.EncodedForm.Statement i :=
  ⟨encode_head i, encode_length i, Instr.wellFormed i⟩

theorem Laws.EncodedForm.nop : Laws.EncodedForm.Statement .nop := Laws.EncodedForm.of_instr _
theorem Laws.EncodedForm.hlt : Laws.EncodedForm.Statement .hlt := Laws.EncodedForm.of_instr _
theorem Laws.EncodedForm.ret : Laws.EncodedForm.Statement .ret := Laws.EncodedForm.of_instr _
theorem Laws.EncodedForm.iret : Laws.EncodedForm.Statement .iret := Laws.EncodedForm.of_instr _
theorem Laws.EncodedForm.push (a : Reg) : Laws.EncodedForm.Statement (.push a) := Laws.EncodedForm.of_instr _
theorem Laws.EncodedForm.pop (a : Reg) : Laws.EncodedForm.Statement (.pop a) := Laws.EncodedForm.of_instr _
theorem Laws.EncodedForm.prn (a : Reg) : Laws.EncodedForm.Statement (.prn a) := Laws.EncodedForm.of_instr _
theorem Laws.EncodedForm.pra (a : Reg) : Laws.EncodedForm.Statement (.pra a) := Laws.EncodedForm.of_instr _
theorem Laws.EncodedForm.call (a : Reg) : Laws.EncodedForm.Statement (.call a) := Laws.EncodedForm.of_instr _
theorem Laws.EncodedForm.int (a : Reg) : Laws.EncodedForm.Statement (.int a) := Laws.EncodedForm.of_instr _
theorem Laws.EncodedForm.jmp (a : Reg) : Laws.EncodedForm.Statement (.jmp a) := Laws.EncodedForm.of_instr _
theorem Laws.EncodedForm.jeq (a : Reg) : Laws.EncodedForm.Statement (.jeq a) := Laws.EncodedForm.of_instr _
theorem Laws.EncodedForm.jne (a : Reg) : Laws.EncodedForm.Statement (.jne a) := Laws.EncodedForm.of_instr _
theorem Laws.EncodedForm.jgt (a : Reg) : Laws.EncodedForm.Statement (.jgt a) := Laws.EncodedForm.of_instr _
theorem Laws.EncodedForm.jlt (a : Reg) : Laws.EncodedForm.Statement (.jlt a) := Laws.EncodedForm.of_instr _
theorem Laws.EncodedForm.jle (a : Reg) : Laws.EncodedForm.Statement (.jle a) := Laws.EncodedForm.of_instr _
theorem Laws.EncodedForm.jge (a : Reg) : Laws.EncodedForm.Statement (.jge a) := Laws.EncodedForm.of_instr _
theorem Laws.EncodedForm.inc (a : Reg) : Laws.EncodedForm.Statement (.inc a) := Laws.EncodedForm.of_instr _
theorem Laws.EncodedForm.dec (a : Reg) : Laws.EncodedForm.Statement (.dec a) := Laws.EncodedForm.of_instr _
theorem Laws.EncodedForm.not (a : Reg) : Laws.EncodedForm.Statement (.not a) := Laws.EncodedForm.of_instr _
theorem Laws.EncodedForm.ldi (a : Reg) (imm : Byte) : Laws.EncodedForm.Statement (.ldi a imm) := Laws.EncodedForm.of_instr _
theorem Laws.EncodedForm.ld (a b : Reg) : Laws.EncodedForm.Statement (.ld a b) := Laws.EncodedForm.of_instr _
theorem Laws.EncodedForm.st (a b : Reg) : Laws.EncodedForm.Statement (.st a b) := Laws.EncodedForm.of_instr _
theorem Laws.EncodedForm.add (a b : Reg) : Laws.EncodedForm.Statement (.add a b) := Laws.EncodedForm.of_instr _
theorem Laws.EncodedForm.sub (a b : Reg) : Laws.EncodedForm.Statement (.sub a b) := Laws.EncodedForm.of_instr _
theorem Laws.EncodedForm.mul (a b : Reg) : Laws.EncodedForm.Statement (.mul a b) := Laws.EncodedForm.of_instr _
theorem Laws.EncodedForm.div (a b : Reg) : Laws.EncodedForm.Statement (.div a b) := Laws.EncodedForm.of_instr _
theorem Laws.EncodedForm.mod (a b : Reg) : Laws.EncodedForm.Statement (.mod a b) := Laws.EncodedForm.of_instr _
theorem Laws.EncodedForm.cmp (a b : Reg) : Laws.EncodedForm.Statement (.cmp a b) := Laws.EncodedForm.of_instr _
theorem Laws.EncodedForm.and (a b : Reg) : Laws.EncodedForm.Statement (.and a b) := Laws.EncodedForm.of_instr _
theorem Laws.EncodedForm.or (a b : Reg) : Laws.EncodedForm.Statement (.or a b) := Laws.EncodedForm.of_instr _
theorem Laws.EncodedForm.xor (a b : Reg) : Laws.EncodedForm.Statement (.xor a b) := Laws.EncodedForm.of_instr _
theorem Laws.EncodedForm.shl (a b : Reg) : Laws.EncodedForm.Statement (.shl a b) := Laws.EncodedForm.of_instr _
theorem Laws.EncodedForm.shr (a b : Reg) : Laws.EncodedForm.Statement (.shr a b) := Laws.EncodedForm.of_instr _

end Sys2Proof
end

