-- ==== Sys2Proof/Laws/Run.lean ====
section
/-! SUPPORT. One more cycle of a run, and what a load writes. -/

namespace Sys2Proof.Machine

/-- A run of no cycle. -/
theorem run_zero (s : State) : Host.Core.run core 0 s = .next s := rfl

/-- A run whose first cycle answers a next state continues from it. -/
theorem run_succ_of_next {s t : State} (h : step s = .next t) (k : Nat) :
    Host.Core.run core (k + 1) s = Host.Core.run core k t := by
  have h' : core.step s = .next t := h
  simp only [Host.Core.run, h']

/-- What a byte reads as after a load, below, inside and above the image (R65, R266). -/
theorem Memory.read_writeImage (m : Memory) (a : Nat) (image : List Byte) (b : Nat) :
    (m.writeImage a image).read b =
      if h : a ≤ b ∧ b < a + image.length then image[b - a]'(by omega) else m.read b := by
  induction image generalizing m a with
  | nil =>
    have h : ¬ (a ≤ b ∧ b < a + ([] : List Byte).length) := by simp only [List.length_nil]; omega
    rw [dif_neg h]
    rfl
  | cons v vs ih =>
    show ((m.write a v).writeImage (a + 1) vs).read b = _
    rw [ih, Memory.read_write]
    simp only [List.length_cons]
    by_cases hb : b = a
    · subst hb
      simp
    · by_cases h : a + 1 ≤ b ∧ b < a + 1 + vs.length
      · have h' : a ≤ b ∧ b < a + (vs.length + 1) := by omega
        have hi : b - a = b - (a + 1) + 1 := by omega
        rw [dif_pos h, dif_pos h']
        simp only [hi, List.getElem_cons_succ]
      · have h' : ¬ (a ≤ b ∧ b < a + (vs.length + 1)) := by omega
        rw [dif_neg h, dif_neg h', if_neg hb]

end Sys2Proof.Machine
end

