-- ==== Sys2Proof/Tests/Slice0.lean ====
section
/-! SUPPORT. The author's own tests: decoding of words written out from the encodings, one or two single steps for each
instruction with results from 95_test_vectors.md, and a witness for the hypotheses of each statement. -/

namespace Sys2Proof.Tests

open Sys2Proof Sys2Proof.Machine

/-- The next state of an answer, if it is one. -/
def next? : Result → Option State
  | .next t => some t
  | .fault _ => none
  | .refused _ => none

/-- What a decoder read, if it read an instruction. -/
def ok? (r : Except DecodeError Instr) : Option Instr :=
  match r with
  | .ok i => some i
  | .error _ => none

/-- Why a decoder refused. -/
def err? (r : Except DecodeError Instr) : Option DecodeError :=
  match r with
  | .ok _ => none
  | .error e => some e

/-- The reset machine with values in R0 and R1. -/
def withRegs (u v : Byte) : State := (State.reset.setReg .r0 u).setReg .r1 v

/-- The reset machine with R7 and the cell it names. -/
def withTop (sp v : Byte) : State := (State.reset.setReg .r7 sp).store8 sp v

/-- The reset machine with three bytes at a pc. -/
def withCode (pc : Nat) (ir opA opB : Byte) : State := State.placeWindow { State.reset with pc := pc } ⟨ir, opA, opB⟩

/-! ### Well-formedness: an ill-formed term for each check -/

theorem test_wf_refuses_slotA : (Raw.mk .push 8 0).badIndex? = some 8 := by decide
theorem test_wf_refuses_slotB : (Raw.mk .add 7 9).badIndex? = some 9 := by decide
theorem test_wf_reports_slotA_first : (Raw.mk .add 10 9).badIndex? = some 10 := by decide
theorem test_wf_takes_immediate : (Raw.mk .ldi 7 0xFF).badIndex? = none := by decide
theorem test_wf_ignores_unused : (Raw.mk .nop 0xFF 0xFF).badIndex? = none := by decide

/-! ### Decoding: one word for each constructor, from R76 and R77 (bits of each byte most significant first) -/

theorem test_decode_nop : ok? (decode ⟨0b00000000, 0xFF, 0xFF⟩) = some .nop := by decide
theorem test_decode_hlt : ok? (decode ⟨0b00000001, 0xFF, 0xFF⟩) = some .hlt := by decide
theorem test_decode_ret : ok? (decode ⟨0b00010001, 0xFF, 0xFF⟩) = some .ret := by decide
theorem test_decode_iret : ok? (decode ⟨0b00010011, 0xFF, 0xFF⟩) = some .iret := by decide
theorem test_decode_push : ok? (decode ⟨0b01000101, 0b00000111, 0xFF⟩) = some (.push .r7) := by decide
theorem test_decode_pop : ok? (decode ⟨0b01000110, 0b00000010, 0xFF⟩) = some (.pop .r2) := by decide
theorem test_decode_prn : ok? (decode ⟨0b01000111, 0b00000101, 0xFF⟩) = some (.prn .r5) := by decide
theorem test_decode_pra : ok? (decode ⟨0b01001000, 0b00000001, 0xFF⟩) = some (.pra .r1) := by decide
theorem test_decode_call : ok? (decode ⟨0b01010000, 0b00000001, 0xFF⟩) = some (.call .r1) := by decide
theorem test_decode_int : ok? (decode ⟨0b01010010, 0b00000110, 0xFF⟩) = some (.int .r6) := by decide
theorem test_decode_jmp : ok? (decode ⟨0b01010100, 0b00000000, 0xFF⟩) = some (.jmp .r0) := by decide
theorem test_decode_jeq : ok? (decode ⟨0b01010101, 0b00000010, 0xFF⟩) = some (.jeq .r2) := by decide
theorem test_decode_jne : ok? (decode ⟨0b01010110, 0b00000011, 0xFF⟩) = some (.jne .r3) := by decide
theorem test_decode_jgt : ok? (decode ⟨0b01010111, 0b00000100, 0xFF⟩) = some (.jgt .r4) := by decide
theorem test_decode_jlt : ok? (decode ⟨0b01011000, 0b00000101, 0xFF⟩) = some (.jlt .r5) := by decide
theorem test_decode_jle : ok? (decode ⟨0b01011001, 0b00000110, 0xFF⟩) = some (.jle .r6) := by decide
theorem test_decode_jge : ok? (decode ⟨0b01011010, 0b00000010, 0xFF⟩) = some (.jge .r2) := by decide
theorem test_decode_inc : ok? (decode ⟨0b01100101, 0b00000000, 0xFF⟩) = some (.inc .r0) := by decide
theorem test_decode_dec : ok? (decode ⟨0b01100110, 0b00000001, 0xFF⟩) = some (.dec .r1) := by decide
theorem test_decode_not : ok? (decode ⟨0b01101001, 0b00000011, 0xFF⟩) = some (.not .r3) := by decide
theorem test_decode_ldi : ok? (decode ⟨0b10000010, 0b00000001, 0b11001000⟩) = some (.ldi .r1 200) := by decide
theorem test_decode_ld : ok? (decode ⟨0b10000011, 0b00000101, 0b00000100⟩) = some (.ld .r5 .r4) := by decide
theorem test_decode_st : ok? (decode ⟨0b10000100, 0b00000100, 0b00000000⟩) = some (.st .r4 .r0) := by decide
theorem test_decode_add : ok? (decode ⟨0b10100000, 0b00000000, 0b00000001⟩) = some (.add .r0 .r1) := by decide
theorem test_decode_sub : ok? (decode ⟨0b10100001, 0b00000001, 0b00000010⟩) = some (.sub .r1 .r2) := by decide
theorem test_decode_mul : ok? (decode ⟨0b10100010, 0b00000010, 0b00000011⟩) = some (.mul .r2 .r3) := by decide
theorem test_decode_div : ok? (decode ⟨0b10100011, 0b00000011, 0b00000100⟩) = some (.div .r3 .r4) := by decide
theorem test_decode_mod : ok? (decode ⟨0b10100100, 0b00000100, 0b00000101⟩) = some (.mod .r4 .r5) := by decide
theorem test_decode_cmp : ok? (decode ⟨0b10100111, 0b00000001, 0b00000010⟩) = some (.cmp .r1 .r2) := by decide
theorem test_decode_and : ok? (decode ⟨0b10101000, 0b00000101, 0b00000110⟩) = some (.and .r5 .r6) := by decide
theorem test_decode_or : ok? (decode ⟨0b10101010, 0b00000110, 0b00000111⟩) = some (.or .r6 .r7) := by decide
theorem test_decode_xor : ok? (decode ⟨0b10101011, 0b00000111, 0b00000000⟩) = some (.xor .r7 .r0) := by decide
theorem test_decode_shl : ok? (decode ⟨0b10101100, 0b00000010, 0b00000010⟩) = some (.shl .r2 .r2) := by decide
theorem test_decode_shr : ok? (decode ⟨0b10101101, 0b00000000, 0b00000111⟩) = some (.shr .r0 .r7) := by decide

/-- V11: bytes between the assigned opcodes are undefined. -/
theorem test_decode_undefined :
    [0x02, 0x10, 0x12, 0x14, 0x40, 0x49, 0x51, 0x53, 0x5B, 0xA5, 0xA6, 0xA9, 0xC0, 0xFF].all
      (fun v : Byte => err? (decode ⟨v, 0, 0⟩) == some (.undefinedOpcode v)) = true := by decide

/-- R78: 222 byte values are undefined. -/
def undefinedFrom (n : Nat) : Nat := ((List.range 32).filter fun k => (lookup (BitVec.ofNat 8 (n + k))).isNone).length
theorem test_decode_undefined_count_no_operand : (undefinedFrom 0x00, undefinedFrom 0x20) = (28, 32) := by decide
theorem test_decode_undefined_count_one_operand : (undefinedFrom 0x40, undefinedFrom 0x60) = (19, 29) := by decide
theorem test_decode_undefined_count_two_operands : (undefinedFrom 0x80, undefinedFrom 0xA0) = (29, 21) := by decide
theorem test_decode_undefined_count_rest : (undefinedFrom 0xC0, undefinedFrom 0xE0) = (32, 32) := by decide

/-- The table's numbering: the second byte is bits 15..8, the third bits 23..16. -/
theorem test_table_word : decodeTableWord 24 0x040583 = some (.ld .r5 .r4) := by decide
theorem test_table_word_upper_bits_zero : decodeTableWord 8 0x0405A0 = some (.add .r0 .r0) := by decide

/-- R54: the encoder lays the bytes out in ascending order (P4's listing). -/
theorem test_encode_st : encode (.st .r4 .r0) = [0x84, 0x04, 0x00] := by decide
theorem test_encode_jne : encode (.jne .r3) = [0x56, 0x03] := by decide

/-! ### One step of each instruction, expected values from 95_test_vectors.md -/

/-- X1, V8. -/
theorem test_step_ldi : (next? (step (withCode 0 0x82 0x00 0x08))).map (fun t => (t.reg .r0, t.pc)) = some (8, 3) := by
  decide
/-- V8: LD R1,R1. -/
theorem test_ld_same : (next? (exec (.ld .r1 .r1) ((withRegs 0 0x80).store8 0x80 0x33))).map (fun t => t.reg .r1)
    = some 0x33 := by decide
/-- V8: ST R0,R0 with data at 254. -/
theorem test_st_same : (next? (exec (.st .r0 .r0) (withRegs 0xFE 0))).map (fun t => t.mem) = some [(254, 0xFE)] := by
  decide
/-- R51: storing what an unlisted cell reads as takes the cell out of the list. -/
theorem test_st_clears : (next? (exec (.st .r0 .r1) ((withRegs 0x80 0).store8 0x80 5))).map (fun t => t.mem)
    = some [] := by decide
/-- V8: PUSH at SP = 0 wraps. -/
theorem test_push_wraps : (next? (exec (.push .r0) ((withRegs 0xAB 0).setReg .r7 0))).map (fun t => (t.sp, t.mem))
    = some (0xFF, [(255, 0xAB)]) := by decide
/-- V8: PUSH R7 stores the decremented pointer. -/
theorem test_push_sp : (next? (exec (.push .r7) State.reset)).map (fun t => (t.sp, t.mem))
    = some (0xEF, [(0xEF, 0xEF)]) := by decide
/-- V8: POP at SP = 255 wraps. -/
theorem test_pop_wraps : (next? (exec (.pop .r1) (withTop 0xFF 0xAB))).map (fun t => (t.reg .r1, t.sp))
    = some (0xAB, 0) := by decide
/-- V8: POP R7. -/
theorem test_pop_sp : (next? (exec (.pop .r7) (withTop 0xEF 0x40))).map (fun t => (t.sp, t.mem))
    = some (0x41, [(0xEF, 0x40)]) := by decide
/-- V1. -/
theorem test_add_wraps : (next? (exec (.add .r0 .r1) (withRegs 0xFF 0xFF))).map (fun t => (t.reg .r0, t.fl, t.pc))
    = some (0xFE, 0, 3) := by decide
theorem test_sub_borrows : (next? (exec (.sub .r0 .r1) (withRegs 3 5))).map (fun t => t.reg .r0) = some 0xFE := by decide
theorem test_mul_low_byte : (next? (exec (.mul .r0 .r1) (withRegs 200 3))).map (fun t => t.reg .r0) = some 88 := by decide
/-- V2. -/
theorem test_div : (next? (exec (.div .r0 .r1) (withRegs 200 7))).map (fun t => t.reg .r0) = some 28 := by decide
theorem test_div_by_zero : (next? (exec (.div .r0 .r1) (withRegs 10 0))).map
    (fun t => (t.fault, t.running, t.reg .r0, t.pc)) = some (some .divisionByZero, false, 10, 0) := by decide
theorem test_mod : (next? (exec (.mod .r0 .r1) (withRegs 255 16))).map (fun t => t.reg .r0) = some 15 := by decide
theorem test_mod_by_zero : (next? (exec (.mod .r0 .r1) (withRegs 0 0))).map (fun t => (t.fault, t.running))
    = some (some .divisionByZero, false) := by decide
/-- V3. -/
theorem test_and : (next? (exec (.and .r0 .r1) (withRegs 0xF0 0x3C))).map (fun t => t.reg .r0) = some 0x30 := by decide
theorem test_or : (next? (exec (.or .r0 .r1) (withRegs 0xF0 0x3C))).map (fun t => t.reg .r0) = some 0xFC := by decide
theorem test_xor : (next? (exec (.xor .r0 .r1) (withRegs 0xF0 0x3C))).map (fun t => t.reg .r0) = some 0xCC := by decide
theorem test_not : (next? (exec (.not .r0) (withRegs 0xA5 0))).map (fun t => (t.reg .r0, t.pc)) = some (0x5A, 2) := by
  decide
theorem test_inc_wraps : (next? (exec (.inc .r0) (withRegs 0xFF 0))).map (fun t => (t.reg .r0, t.fl)) = some (0, 0) := by
  decide
theorem test_dec_wraps : (next? (exec (.dec .r0) (withRegs 0 0))).map (fun t => t.reg .r0) = some 0xFF := by decide
/-- V4, V6. -/
theorem test_shl_drops : (next? (exec (.shl .r0 .r1) (withRegs 0x81 1))).map (fun t => t.reg .r0) = some 0x02 := by decide
theorem test_shl_whole_count : (next? (exec (.shl .r0 .r1) (withRegs 0xFF 255))).map (fun t => t.reg .r0) = some 0 := by
  decide
theorem test_shr_logical : (next? (exec (.shr .r0 .r1) (withRegs 0x81 1))).map (fun t => t.reg .r0) = some 0x40 := by
  decide
theorem test_shr_whole_count : (next? (exec (.shr .r0 .r1) (withRegs 0x80 8))).map (fun t => t.reg .r0) = some 0 := by
  decide
/-- V5: bits 7:3 survive, the comparison is unsigned. -/
theorem test_cmp_keeps_high_bits : (next? (exec (.cmp .r0 .r1) ((withRegs 9 1).setFl 0xFD))).map (fun t => t.fl)
    = some 0xFA := by decide
theorem test_cmp_unsigned : (next? (exec (.cmp .r0 .r1) ((withRegs 0 255).setFl 0x07))).map (fun t => (t.fl, t.reg .r0))
    = some (0x04, 0) := by decide
/-- V7: the six jumps on the FL values 00, 01, 02, 04, 03, 05, 06, 07, 08, F9. -/
def taken (mk : Reg → Instr) : List Bool :=
  ([0x00, 0x01, 0x02, 0x04, 0x03, 0x05, 0x06, 0x07, 0x08, 0xF9] : List Byte).map fun f =>
    (next? (exec (mk .r0) ((withRegs 0x40 0).setFl f))).map (fun t => t.pc) == some 0x40
theorem test_jeq : taken .jeq = [false, true, false, false, true, true, false, true, false, true] := by decide
theorem test_jne : taken .jne = [true, false, true, true, false, false, true, false, true, false] := by decide
theorem test_jgt : taken .jgt = [false, false, true, false, true, false, true, true, false, false] := by decide
theorem test_jge : taken .jge = [false, true, true, false, true, true, true, true, false, true] := by decide
theorem test_jlt : taken .jlt = [false, false, false, true, false, true, true, true, false, false] := by decide
theorem test_jle : taken .jle = [false, true, false, true, true, true, true, true, false, true] := by decide
/-- V7: a jump not taken moves on by 2. -/
theorem test_jeq_not_taken : (next? (exec (.jeq .r0) (withRegs 0x40 0))).map (fun t => t.pc) = some 2 := by decide
/-- V9. -/
theorem test_jmp : (next? (exec (.jmp .r0) (withRegs 0xFE 0))).map (fun t => t.pc) = some 254 := by decide
theorem test_call : (next? (exec (.call .r1) { withRegs 0 11 with pc := 6 })).map (fun t => (t.sp, t.mem, t.pc))
    = some (0xEF, [(0xEF, 8)], 11) := by decide
theorem test_call_sp : (next? (exec (.call .r7) State.reset)).map (fun t => (t.sp, t.mem, t.pc))
    = some (0xEF, [(0xEF, 2)], 0xEF) := by decide
theorem test_ret : (next? (exec .ret (withTop 0xEF 8))).map (fun t => (t.pc, t.sp)) = some (8, 0xF0) := by decide
theorem test_nop : (next? (exec .nop { State.reset with pc := 4 })) = some { State.reset with pc := 5 } := by decide
/-- X3. -/
theorem test_hlt : (next? (step (withCode 0 0x01 0 0))).map (fun t => (t.pc, t.running, t.fault)) = some (1, false, none) := by
  decide
theorem test_prn : (next? (exec (.prn .r0) (withRegs 72 0))).map (fun t => (t.out, t.outText))
    = some ([.dec 72], ['7', '2', '\n']) := by decide
theorem test_prn_zero : (next? (exec (.prn .r0) State.reset)).map (fun t => t.outText) = some ['0', '\n'] := by decide
theorem test_pra : (next? (exec (.pra .r1) (withRegs 0 0x41))).map (fun t => (t.out, t.outText))
    = some ([.chr 65], ['A']) := by decide
theorem test_int : (next? (exec (.int .r0) ((withRegs 7 0).setReg .r6 8))).map (fun t => (t.reg .r6, t.pc))
    = some (0x88, 2) := by decide
theorem test_int_nine : (next? (exec (.int .r0) ((withRegs 9 0).setReg .r6 8))).map (fun t => t.reg .r6) = some 8 := by
  decide
/-- V9, P6: the frame at 0xE7. -/
def frame : State :=
  { State.reset.setReg .r7 0xE7 with
    mem := [(0xE7, 0x16), (0xE8, 0x15), (0xE9, 0x14), (0xEA, 0x13), (0xEB, 0x12), (0xEC, 0x11), (0xED, 0x10),
      (0xEE, 0x02), (0xEF, 0x2F)] }
theorem test_iret : (next? (exec .iret frame)).map (fun t => (t.regs, t.fl, t.pc))
    = some (⟨0x10, 0x11, 0x12, 0x13, 0x14, 0x15, 0x16, 0xF0⟩, 0x02, 0x2F) := by decide

/-! ### The front end (V10) -/

theorem test_undefined : (next? (step (withCode 0 0xFF 0 0))).map (fun t => (t.fault, t.running, t.pc))
    = some (some (.undefinedOpcode 0xFF), true, 0) := by decide
theorem test_bad_index_not_taken : (next? (step (withCode 0 0x55 9 0))).map (fun t => t.fault)
    = some (some (.invalidRegisterIndex 9)) := by decide
theorem test_bad_index_before_division : (next? (step (withCode 0 0xA3 9 1))).map (fun t => (t.fault, t.running))
    = some (some (.invalidRegisterIndex 9), true) := by decide
theorem test_hlt_at_253 : (next? (step (withCode 253 0x01 0xFF 0xFF))).map (fun t => (t.pc, t.running, t.fault))
    = some (254, false, none) := by decide
theorem test_ldi_at_253 : (next? (step (withCode 253 0x82 1 0x77))).map (fun t => (t.pc, t.reg .r1))
    = some (256, 0x77) := by decide
theorem test_fetch_254 : (next? (step (withCode 254 0xFF 0 0))).map (fun t => (t.fault, t.pc))
    = some (some (.outOfRangeMemoryAccess 256), 254) := by decide
theorem test_stopped : next? (step { withCode 0 0x82 0 8 with running := false })
    = some { withCode 0 0x82 0 8 with running := false } := by decide
theorem test_fetch_word_runs : (next? (step (State.reset.withFetchWord 24 0x080082))).map (fun t => (t.reg .r0, t.pc))
    = some (8, 3) := by decide

/-! ### Witnesses: for each statement with hypotheses, concrete values that meet them -/

theorem witness_EncodingRestoresDecodedBytes : decode ⟨0x82, 7, 0xFF⟩ = .ok (.ldi .r7 0xFF) := rfl

/-- A map other than the default that meets R75: bit 5 of every default opcode flipped. -/
theorem witness_RoundTripUnderEveryOpcodeMap : OpcodeMapOk fun op => op.opcode ^^^ 0x20 := by
  refine ⟨?_, fun op => by cases op <;> decide⟩
  intro p q h
  have h' : some p = some q := by
    have e : ∀ op : Op, lookupWith (fun o => o.opcode ^^^ 0x20) (op.opcode ^^^ 0x20) = some op := by
      intro op; cases op <;> decide
    rw [← e p, ← e q]
    exact congrArg _ h
  exact Option.some.inj h'

theorem witness_UndefinedOpcodeExactlyOutsideTable :
    operandCountOf 0xC0 = 3 ∧ (∀ op : Op, op.opcode ≠ 0x02) ∧ (∀ op : Op, op.opcode ≠ 0xFF) := by
  refine ⟨by decide, ?_, ?_⟩ <;> intro op <;> cases op <;> decide

theorem witness_IndexCheckCoversRegisterSlots :
    Op.add.opcode = 0xA0 ∧ Op.add.slotA = .reg ∧ Op.add.slotB = .reg ∧ 8 ≤ (8 : Byte).toNat ∧ (7 : Byte).toNat < 8 ∧
      Op.ldi.slotB ≠ .reg ∧ Op.nop.slotA ≠ .reg := by decide

theorem witness_StepRunsDecodedInstruction :
    (withCode 253 0x47 5 0).running = true ∧ (withCode 253 0x47 5 0).fault = none ∧ (withCode 253 0x47 5 0).pc ≤ 253 ∧
      ok? (decode ⟨(withCode 253 0x47 5 0).mem.read 253, (withCode 253 0x47 5 0).mem.read 254,
        (withCode 253 0x47 5 0).mem.read 255⟩) = some (.prn .r5) := by decide

theorem witness_StoppedMachineStaysAsItIs :
    State.reset.halt.running = false ∧ (State.reset.raise .divisionByZero).fault ≠ none := by decide

theorem witness_FetchPastWindowRaises :
    State.reset.running = true ∧ State.reset.fault = none ∧ 254 ≤ ({ State.reset with pc := 254 } : State).pc ∧
      ({ State.reset with pc := 256 } : State).pc ≤ 256 := by decide

theorem witness_UndefinedOpcodeRaises :
    (withCode 253 0xC0 0 0).running = true ∧ (withCode 253 0xC0 0 0).fault = none ∧ (withCode 253 0xC0 0 0).pc ≤ 253 ∧
      ∀ op : Op, op.opcode ≠ (withCode 253 0xC0 0 0).mem.read 253 := by
  refine ⟨rfl, rfl, by decide, fun op => ?_⟩
  cases op <;> decide

theorem witness_InvalidRegisterIndexRaises_slotA :
    (withCode 0 0x55 8 0).running = true ∧ (withCode 0 0x55 8 0).fault = none ∧ (withCode 0 0x55 8 0).pc ≤ 253 ∧
      Op.jeq.opcode = (withCode 0 0x55 8 0).mem.read 0 ∧ Op.jeq.slotA = .reg ∧
      8 ≤ ((withCode 0 0x55 8 0).mem.read 1).toNat := by decide

theorem witness_InvalidRegisterIndexRaises_slotB :
    Op.div.opcode = (withCode 0 0xA3 7 8).mem.read 0 ∧ ((withCode 0 0xA3 7 8).mem.read 1).toNat < 8 ∧
      Op.div.slotB = .reg ∧ 8 ≤ ((withCode 0 0xA3 7 8).mem.read 2).toNat := by decide

theorem witness_DivisionByZeroHaltsAndLatches :
    (withRegs 10 0).reg .r1 = 0 ∧ exec .hlt State.reset = .next (State.reset.halt.advance 1) ∧
      State.reset.running = true ∧ (State.reset.halt.advance 1).running = false := ⟨by decide, rfl, rfl, rfl⟩

theorem witness_OnlyDivisionRaisesInExecution :
    exec (.mod .r0 .r1) (withRegs 10 0) = .next ((withRegs 10 0).raise .divisionByZero) ∧
      ((withRegs 10 0).raise .divisionByZero).fault ≠ (withRegs 10 0).fault := ⟨rfl, by decide⟩

theorem witness_ErrorsArePrecise :
    step (withCode 0 0xA3 0 1) = .next ((withCode 0 0xA3 0 1).raise .divisionByZero) ∧
      (withCode 0 0xA3 0 1).fault = none ∧
      ((withCode 0 0xA3 0 1).raise .divisionByZero).fault = some .divisionByZero := ⟨rfl, rfl, rfl⟩

theorem witness_RunFlagHistory_stays : step State.reset.halt = .next State.reset.halt ∧ State.reset.halt.running = false :=
  ⟨rfl, rfl⟩
theorem witness_RunFlagHistory_clears :
    step (withCode 0 0x01 0 0) = .next ((withCode 0 0x01 0 0).halt.advance 1) ∧ (withCode 0 0x01 0 0).running = true ∧
      ((withCode 0 0x01 0 0).halt.advance 1).running = false := ⟨rfl, rfl, rfl⟩
theorem witness_RunFlagHistory_error :
    step (withCode 0 0xFF 0 0) = .next ((withCode 0 0xFF 0 0).raise (.undefinedOpcode 0xFF)) ∧
      (withCode 0 0xFF 0 0).fault = none ∧
      ((withCode 0 0xFF 0 0).raise (.undefinedOpcode 0xFF)).fault = some (.undefinedOpcode 0xFF) := ⟨rfl, rfl, rfl⟩

theorem witness_OutputGrowsAndIsNeverRead :
    step (withCode 0 0x47 7 0) = .next (((withCode 0 0x47 7 0).emit (.dec 0xF0)).advance 2) := rfl

theorem witness_SequencerAdvancesByOpcodeLength :
    exec (.int .r7) State.reset = .next (State.reset.advance 2) ∧ (Instr.int .r7).op.setsPc = false ∧
      State.reset.fault = none ∧ (State.reset.advance 2).fault = none := ⟨rfl, by decide, rfl, rfl⟩

theorem witness_StepKeepsInvariant :
    (withCode 7 0x00 0 0).Inv ∧ step (withCode 7 0x00 0 0) = .next ((withCode 7 0x00 0 0).advance 1) :=
  ⟨⟨by decide, by decide, trivial⟩, rfl⟩

theorem witness_InvariantHoldsAfterLoadAndRun :
    State.reset.load [0x01] = .ok (withCode 0 0x01 0 0) ∧
      Host.Core.run core 1 (withCode 0 0x01 0 0) = .next ((withCode 0 0x01 0 0).halt.advance 1) := ⟨rfl, rfl⟩

theorem witness_LoadPlacesImageOrRefuses :
    (List.replicate 256 (0xFF : Byte)).length ≤ 256 ∧ 256 < (List.replicate 257 (0xFF : Byte)).length := by
  rw [List.length_replicate, List.length_replicate]; omega

theorem witness_MemoryPortRangeCheck : 256 ≤ (256 : Nat) := Nat.le_refl _

theorem witness_CanonicalMemoryIsUnique :
    Memory.wf [(3, 1), (255, 2)] ∧
      Memory.write (Memory.write [] 255 2) 3 1 = Memory.write (Memory.write [] 3 1) 255 2 := by decide

theorem witness_StoreIsSeenByNextFetch : ({ withRegs 253 0x01 with pc := 250 } : State).pc ≤ 250 := by decide

theorem witness_MemoryFrame :
    exec (.push .r0) State.reset = .next ((State.reset.push 0).advance 2) ∧
      (Instr.push .r0).storesTo State.reset = some 0xEF ∧ (0xEE : Nat) ≠ (0xEF : Byte).toNat := ⟨rfl, by decide, by decide⟩

theorem witness_RegisterFrame :
    exec (.inc .r0) State.reset = .next ((State.reset.setReg .r0 1).advance 2) ∧ Reg.r1 ∉ (Instr.inc .r0).writes :=
  ⟨rfl, by decide⟩

theorem witness_InterruptRegistersAreInert (r : Reg) :
    step (withCode 0 0x47 1 0) = .next (((withCode 0 0x47 1 0).emit (.dec 0)).advance 2) ∧
      ∀ i, (withCode 0 0x47 1 0).fetchDecode = .ok i →
        (r = .r5 ∨ r = .r6) → r ∉ i.names ∧ i ≠ .iret ∧ (r = .r6 → ∀ a, i ≠ .int a) := by
  refine ⟨rfl, fun i h hr => ?_⟩
  have hi : i = .prn .r1 := (Except.ok.inj h).symm
  subst hi
  rcases hr with rfl | rfl <;> exact ⟨by decide, by decide, fun _ a => by simp⟩

theorem witness_DivModResults : (withRegs 200 7).reg .r1 ≠ 0 := by decide

theorem witness_ShiftResults : 8 ≤ ((withRegs 1 8).reg .r1).toNat ∧ 8 ≤ ((withRegs 1 255).reg .r1).toNat := by decide

theorem witness_AluButCmpIgnoresFlags : (Instr.div .r0 .r1).isAluButCmp = true := rfl

theorem witness_OnlyCmpAndIretWriteFlags :
    exec .nop State.reset = .next (State.reset.advance 1) ∧ (∀ a b, Instr.nop ≠ .cmp a b) ∧ Instr.nop ≠ .iret :=
  ⟨rfl, by simp, by simp⟩

theorem witness_PopResult : Reg.r2 ≠ .r7 ∧ Reg.r7 = .r7 := ⟨by decide, rfl⟩

theorem witness_PushThenPopRestores :
    Reg.r0 ≠ .r7 ∧ exec (.push .r0) (withRegs 0xAB 0) = .next (((withRegs 0xAB 0).push 0xAB).advance 2) ∧
      (withTop 0xEF 0xAB).sp = (((withRegs 0xAB 0).push 0xAB).advance 2).sp ∧
      (withTop 0xEF 0xAB).mem.read 0xEF = (((withRegs 0xAB 0).push 0xAB).advance 2).mem.read 0xEF :=
  ⟨by decide, rfl, rfl, rfl⟩

theorem witness_JumpTakesRegisterAsTarget : ((withRegs 0 0).reg .r0).toNat = (withRegs 0 0).pc := by decide

theorem witness_JumpsAfterCompare :
    exec (.cmp .r0 .r1) (withRegs 5 6) = .next (((withRegs 5 6).setFl 0x04).advance 3) := rfl

theorem witness_CallResult : ({ State.reset with pc := 253 } : State).pc ≤ 253 := by decide

theorem witness_CallThenReturnResumes :
    (withRegs 0 11).pc ≤ 253 ∧ exec (.call .r1) (withRegs 0 11) = .next (((withRegs 0 11).push 2).jumpTo 11) ∧
      (withTop 0xEF 2).sp = (((withRegs 0 11).push 2).jumpTo 11).sp ∧
      (withTop 0xEF 2).mem.read 0xEF = (((withRegs 0 11).push 2).jumpTo 11).mem.read 0xEF :=
  ⟨by decide, rfl, rfl, rfl⟩

theorem witness_OutputText : (0x7F : Byte).toNat < 128 := by decide

theorem witness_InterruptSetsOneBit : 8 ≤ ((withRegs 9 0).reg .r0).toNat := by decide

end Sys2Proof.Tests
end

section
/-! PROOFS. The state an instruction leaves, as one total function, and what each piece of state is in it: the rules from
which the obligations about single instructions and about steps are assembled. -/

namespace Sys2Proof.Machine

/-! ### Two shapes that several instructions share: a branch, and a commit guarded by the divisor -/

/-- Where a conditional jump leaves the machine (R180). -/
def State.branch (s : State) (taken : Bool) (a : Reg) : State :=
  { s with pc := if taken then (s.reg a).toNat else s.pc + 2 }

/-- What DIV and MOD leave: the result `v` in `a`, or the error of a zero divisor in `b` (R136, R137, R225). -/
def State.commitQuotient (s : State) (a b : Reg) (v : Byte) : State :=
  if (s.reg b).toNat = 0 then s.raise .divisionByZero else (s.setReg a v).advance 3

section Fields
variable (s : State) (taken : Bool) {a b r : Reg} (v : Byte)

@[simp] theorem State.branch_reg : (s.branch taken a).reg r = s.reg r := rfl
@[simp] theorem State.branch_mem : (s.branch taken a).mem = s.mem := rfl
@[simp] theorem State.branch_pc : (s.branch taken a).pc = if taken then (s.reg a).toNat else s.pc + 2 := rfl
@[simp] theorem State.branch_fl : (s.branch taken a).fl = s.fl := rfl
@[simp] theorem State.branch_running : (s.branch taken a).running = s.running := rfl
@[simp] theorem State.branch_fault : (s.branch taken a).fault = s.fault := rfl
@[simp] theorem State.branch_out : (s.branch taken a).out = s.out := rfl

theorem State.commitQuotient_of_zero (h : s.reg b = 0) : s.commitQuotient a b v = s.raise .divisionByZero :=
  if_pos (by rw [h]; rfl)

theorem State.commitQuotient_of_ne_zero (h : s.reg b ≠ 0) : s.commitQuotient a b v = (s.setReg a v).advance 3 :=
  if_neg fun h0 => h (BitVec.eq_of_toNat_eq h0)

theorem State.commitQuotient_reg_of_ne (h : r ≠ a) : (s.commitQuotient a b v).reg r = s.reg r := by
  unfold State.commitQuotient; split <;> simp [h]
@[simp] theorem State.commitQuotient_mem : (s.commitQuotient a b v).mem = s.mem := by
  unfold State.commitQuotient; split <;> rfl
@[simp] theorem State.commitQuotient_fl : (s.commitQuotient a b v).fl = s.fl := by
  unfold State.commitQuotient; split <;> rfl
@[simp] theorem State.commitQuotient_out : (s.commitQuotient a b v).out = s.out := by
  unfold State.commitQuotient; split <;> rfl
theorem State.commitQuotient_pc_le : (s.commitQuotient a b v).pc ≤ s.pc + 3 := by
  unfold State.commitQuotient; split <;> simp
end Fields

/-! ### The state an instruction leaves -/

/-- The state an instruction leaves, in the primitives of Machine/Ops.lean and Machine/Operands.lean. `exec_eq_effect` ties
it to `exec`. -/
def effect : Instr → State → State
  | .nop, s => s.advance 1
  | .hlt, s => s.halt.advance 1
  | .ret, s => s.popPc
  | .iret, s =>
    (((((((((s.popReg .r6).popReg .r5).popReg .r4).popReg .r3).popReg .r2).popReg .r1).popReg .r0).popFl).popPc)
  | .push a, s => (s.push (s.decSp.reg a)).advance 2
  | .pop a, s => (s.setReg a s.top).incSp.advance 2
  | .prn a, s => (s.emit (.dec (s.reg a))).advance 2
  | .pra a, s => (s.emit (.chr (s.reg a))).advance 2
  | .call a, s => (s.push s.returnAddr).jumpTo ((s.push s.returnAddr).reg a)
  | .int a, s => (s.setReg .r6 (s.reg .r6 ||| interruptBit (s.reg a))).advance 2
  | .jmp a, s => s.jumpTo (s.reg a)
  | .jeq a, s => s.branch (condEq s.fl) a
  | .jne a, s => s.branch (condNe s.fl) a
  | .jgt a, s => s.branch (condGt s.fl) a
  | .jlt a, s => s.branch (condLt s.fl) a
  | .jle a, s => s.branch (condLe s.fl) a
  | .jge a, s => s.branch (condGe s.fl) a
  | .inc a, s => (s.setReg a (aluInc (s.reg a))).advance 2
  | .dec a, s => (s.setReg a (aluDec (s.reg a))).advance 2
  | .not a, s => (s.setReg a (aluNot (s.reg a))).advance 2
  | .ldi a imm, s => (s.setReg a imm).advance 3
  | .ld a b, s => (s.setReg a (s.load8 (s.reg b))).advance 3
  | .st a b, s => (s.store8 (s.reg a) (s.reg b)).advance 3
  | .add a b, s => (s.setReg a (aluAdd (s.reg a) (s.reg b))).advance 3
  | .sub a b, s => (s.setReg a (aluSub (s.reg a) (s.reg b))).advance 3
  | .mul a b, s => (s.setReg a (aluMul (s.reg a) (s.reg b))).advance 3
  | .div a b, s => s.commitQuotient a b (aluDiv (s.reg a) (s.reg b))
  | .mod a b, s => s.commitQuotient a b (aluMod (s.reg a) (s.reg b))
  | .cmp a b, s => (s.setFl (cmpFlags s.fl (s.reg a) (s.reg b))).advance 3
  | .and a b, s => (s.setReg a (aluAnd (s.reg a) (s.reg b))).advance 3
  | .or a b, s => (s.setReg a (aluOr (s.reg a) (s.reg b))).advance 3
  | .xor a b, s => (s.setReg a (aluXor (s.reg a) (s.reg b))).advance 3
  | .shl a b, s => (s.setReg a (aluShl (s.reg a) (s.reg b))).advance 3
  | .shr a b, s => (s.setReg a (aluShr (s.reg a) (s.reg b))).advance 3

/-- Every instruction answers a next state, and `effect` is that state (R108). -/
theorem exec_eq_effect (i : Instr) (s : State) : exec i s = .next (effect i s) := by
  cases i with
  | div a b => exact (exec_div a b s).trans (apply_ite Host.Outcome.next ..).symm
  | mod a b => exact (exec_mod a b s).trans (apply_ite Host.Outcome.next ..).symm
  | jeq a => exact exec_jeq a s
  | jne a => exact exec_jne a s
  | jgt a => exact exec_jgt a s
  | jlt a => exact exec_jlt a s
  | jle a => exact exec_jle a s
  | jge a => exact exec_jge a s
  | _ => rfl

theorem exec_next_iff {i : Instr} {s t : State} : exec i s = .next t ↔ t = effect i s := by
  rw [exec_eq_effect, Host.Outcome.next.injEq, eq_comm]

/-- The instruction is a DIV or MOD whose divisor register holds zero (R225). -/
def DividesByZero (i : Instr) (s : State) : Prop :=
  ∃ a b, (i = .div a b ∨ i = .mod a b) ∧ s.reg b = 0

/-- The events an instruction emits (R202, R203). -/
def emits : Instr → State → List OutEvent
  | .prn a, s => [.dec (s.reg a)]
  | .pra a, s => [.chr (s.reg a)]
  | _, _ => []

theorem emits_cases (i : Instr) (s : State) :
    emits i s = [] ∨ (∃ a, i = .prn a ∧ emits i s = [.dec (s.reg a)]) ∨
      ∃ a, i = .pra a ∧ emits i s = [.chr (s.reg a)] := by
  cases i with
  | prn a => exact .inr (.inl ⟨a, rfl, rfl⟩)
  | pra a => exact .inr (.inr ⟨a, rfl, rfl⟩)
  | _ => exact .inl rfl

section Effect
variable (i : Instr) (s : State)

/-- Registers outside the write rows of R22's table keep their values. -/
theorem effect_reg_of_notMem_writes {r : Reg} (h : r ∉ i.writes) : (effect i s).reg r = s.reg r := by
  cases i <;> simp_all [effect, Instr.writes, State.commitQuotient_reg_of_ne]

/-- Memory changes by one byte store at most, at the address `storesTo` gives (R53). -/
theorem effect_mem : (effect i s).mem = s.mem ∨
    ∃ addr v : Byte, i.storesTo s = some addr ∧ (effect i s).mem = s.mem.write addr.toNat v := by
  cases i with
  | st a b | push a | call a => exact .inr ⟨_, _, rfl, rfl⟩
  | _ => exact .inl (by simp [effect])

theorem effect_fl (hcmp : ∀ a b, i ≠ .cmp a b) (hiret : i ≠ .iret) : (effect i s).fl = s.fl := by
  cases i with
  | cmp a b => exact absurd rfl (hcmp a b)
  | iret => exact absurd rfl hiret
  | _ => simp [effect]

theorem effect_out : (effect i s).out = s.out ++ emits i s := by
  cases i <;> simp [effect, emits]

/-- pc moves on by at most the longest instruction's length, or becomes a byte (R110, R118). -/
theorem effect_pc_le : (effect i s).pc ≤ s.pc + 3 ∨ (effect i s).pc < 256 := by
  cases i with
  | div a b | mod a b => exact .inl (s.commitQuotient_pc_le _)
  | jeq a | jne a | jgt a | jlt a | jle a | jge a =>
    simp only [effect, State.branch_pc]
    split
    · exact .inr (toNat_lt _)
    · exact .inl (by omega)
  | _ => simp [effect, toNat_lt]

/-- An instruction either divides by zero, which has the effect of raising that error and no other, or latches nothing and
keeps the run flag unless it is HLT (R108, R200, R225). -/
theorem effect_control :
    (DividesByZero i s ∧ effect i s = s.raise .divisionByZero) ∨
      ((effect i s).fault = s.fault ∧ ((effect i s).running = s.running ∨ i = .hlt)) := by
  cases i with
  | div a b =>
    by_cases hb : s.reg b = 0
    · exact .inl ⟨⟨a, b, .inl rfl, hb⟩, s.commitQuotient_of_zero _ hb⟩
    · simp [effect, s.commitQuotient_of_ne_zero _ hb]
  | mod a b =>
    by_cases hb : s.reg b = 0
    · exact .inl ⟨⟨a, b, .inr rfl, hb⟩, s.commitQuotient_of_zero _ hb⟩
    · simp [effect, s.commitQuotient_of_ne_zero _ hb]
  | _ => simp [effect]

theorem effect_mem_wf {s : State} (h : s.mem.wf) : (effect i s).mem.wf := by
  rcases effect_mem i s with he | ⟨addr, v, -, he⟩
  · rwa [he]
  · rw [he]
    exact Memory.write_byte_wf h addr v
end Effect

end Sys2Proof.Machine
end

section
/-! PROOFS. What the machine does not read: the output stream (R33), and a register that the instruction does not use (R24).
An update of such a piece of state commutes with each operation, so it commutes with every instruction. -/

namespace Sys2Proof.Machine

/-- The state with another output stream. -/
def State.withOut (s : State) (o : List OutEvent) : State := { s with out := o }

section WithOut
variable (i : Instr) (s : State) (o : List OutEvent)

theorem State.withOut_popReg (r : Reg) : (s.withOut o).popReg r = (s.popReg r).withOut o := rfl
theorem State.withOut_popFl : (s.withOut o).popFl = s.popFl.withOut o := rfl
theorem State.withOut_popPc : (s.withOut o).popPc = s.popPc.withOut o := rfl

theorem State.withOut_commitQuotient (a b : Reg) (v : Byte) :
    (s.withOut o).commitQuotient a b v = (s.commitQuotient a b v).withOut o := by
  by_cases hb : s.reg b = 0
  · rw [s.commitQuotient_of_zero v hb, (s.withOut o).commitQuotient_of_zero v hb]
    rfl
  · rw [s.commitQuotient_of_ne_zero v hb, (s.withOut o).commitQuotient_of_ne_zero v hb]
    rfl

/-- From another output stream an instruction emits the same events and does the same otherwise. -/
theorem effect_withOut : effect i (s.withOut o) = (effect i s).withOut (o ++ emits i s) := by
  cases i with
  | prn a | pra a => rfl
  | div a b | mod a b =>
    simp only [emits, List.append_nil]
    exact s.withOut_commitQuotient ..
  | iret => simp only [effect, emits, List.append_nil, State.withOut_popReg, State.withOut_popFl, State.withOut_popPc]
  | _ =>
    simp only [emits, List.append_nil]
    rfl
end WithOut

section SetReg
variable (s : State) {r : Reg} (v : Byte)

theorem State.setReg_setReg_comm {a : Reg} (h : r ≠ a) (w : Byte) :
    (s.setReg r v).setReg a w = (s.setReg a w).setReg r v :=
  congrArg (fun rs => ({ s with regs := rs } : State)) (Regs.set_comm s.regs h v w)

theorem State.setReg_commitQuotient {a b : Reg} (ha : r ≠ a) (hb : b ≠ r) (w : Byte) :
    (s.setReg r v).commitQuotient a b w = (s.commitQuotient a b w).setReg r v := by
  have hreg : (s.setReg r v).reg b = s.reg b := by simp [hb]
  by_cases h0 : s.reg b = 0
  · rw [s.commitQuotient_of_zero w h0, State.commitQuotient_of_zero _ w (hreg.trans h0)]
    rfl
  · rw [s.commitQuotient_of_ne_zero w h0, State.commitQuotient_of_ne_zero _ w (hreg.trans_ne h0),
      s.setReg_setReg_comm v ha]
    rfl

theorem State.setReg_sp (h : r ≠ .r7) : (s.setReg r v).sp = s.sp := by
  simp [State.sp, h.symm]

theorem State.setReg_pushAddr (h : r ≠ .r7) : (s.setReg r v).pushAddr = s.pushAddr := by
  rw [State.pushAddr, s.setReg_sp v h, State.pushAddr]

theorem State.setReg_top (h : r ≠ .r7) : (s.setReg r v).top = s.top := by
  rw [State.top_eq, s.setReg_sp v h, State.setReg_mem, State.top_eq]

theorem State.setReg_incSp (h : r ≠ .r7) : (s.setReg r v).incSp = s.incSp.setReg r v := by
  simp only [State.incSp, s.setReg_sp v h, s.setReg_setReg_comm v h]

theorem State.setReg_decSp (h : r ≠ .r7) : (s.setReg r v).decSp = s.decSp.setReg r v := by
  simp only [State.decSp, s.setReg_pushAddr v h, s.setReg_setReg_comm v h]

theorem State.setReg_push (h : r ≠ .r7) (w : Byte) : (s.setReg r v).push w = (s.push w).setReg r v := by
  simp only [State.push, s.setReg_decSp v h, State.setReg_sp _ v h]
  rfl

theorem State.setReg_popPc (h : r ≠ .r7) : (s.setReg r v).popPc = s.popPc.setReg r v := by
  simp only [State.popPc, s.setReg_incSp v h, s.setReg_top v h]
  rfl

/-- A register that is not the stack pointer, not named, and not used implicitly by IRET or INT (R22) keeps to itself: the
instruction neither reads nor writes it. -/
theorem effect_setReg (i : Instr) (hr7 : r ≠ .r7) (hnames : r ∉ i.names) (hiret : i ≠ .iret)
    (hint : r = .r6 → ∀ a, i ≠ .int a) : effect i (s.setReg r v) = (effect i s).setReg r v := by
  have hne : ∀ a ∈ i.names, a ≠ r := fun a ha h => hnames (h ▸ ha)
  cases i with
  | nop | hlt => rfl
  | iret => exact absurd rfl hiret
  | ret => exact s.setReg_popPc v hr7
  | push a =>
    have ha : a ≠ r := hne a List.mem_cons_self
    simp only [effect, s.setReg_decSp v hr7, s.setReg_push v hr7, State.reg_setReg, if_neg ha]
    rfl
  | call a =>
    have ha : a ≠ r := hne a List.mem_cons_self
    simp only [effect, s.setReg_push v hr7, State.reg_setReg, if_neg ha]
    rfl
  | pop a =>
    have ha : a ≠ r := hne a List.mem_cons_self
    simp only [effect, s.setReg_top v hr7, s.setReg_setReg_comm v ha.symm, State.setReg_incSp _ v hr7]
    rfl
  | int a =>
    have ha : a ≠ r := hne a List.mem_cons_self
    have hr6 : r ≠ .r6 := fun h => hint h a rfl
    simp only [effect, State.reg_setReg, if_neg ha, if_neg hr6.symm, s.setReg_setReg_comm v hr6]
    rfl
  | prn a | pra a | jmp a | jeq a | jne a | jgt a | jlt a | jle a | jge a =>
    have ha : a ≠ r := hne a List.mem_cons_self
    simp only [effect, State.branch, State.reg_setReg, if_neg ha]
    rfl
  | ldi a _ | inc a | dec a | not a =>
    have ha : a ≠ r := hne a List.mem_cons_self
    simp only [effect, State.reg_setReg, if_neg ha, s.setReg_setReg_comm v ha.symm]
    rfl
  | ld a b | add a b | sub a b | mul a b | and a b | or a b | xor a b | shl a b | shr a b | st a b | cmp a b =>
    have ha : a ≠ r := hne a List.mem_cons_self
    have hb : b ≠ r := hne b (List.mem_cons_of_mem _ List.mem_cons_self)
    simp only [effect, State.reg_setReg, if_neg ha, if_neg hb, s.setReg_setReg_comm v ha.symm]
    rfl
  | div a b | mod a b =>
    have ha : a ≠ r := hne a List.mem_cons_self
    have hb : b ≠ r := hne b (List.mem_cons_of_mem _ List.mem_cons_self)
    simp only [effect, State.reg_setReg, if_neg ha, if_neg hb, s.setReg_commitQuotient v ha.symm hb]
end SetReg

end Sys2Proof.Machine
end

section
/-! PROOFS. The next state of a step (R121), and the invariant that every step keeps. -/

namespace Sys2Proof.Machine

section Step
variable {s t : State} {i : Instr} {k : ErrorKind}

theorem step_of_stopped (h : s.stopped = true) : step s = .next s := if_pos h

theorem step_of_error (hs : s.stopped = false) (hk : s.fetchDecode = .error k) : step s = .next (s.raise k) := by
  simp [step, hs, hk]

theorem step_of_instr (hs : s.stopped = false) (hi : s.fetchDecode = .ok i) : step s = .next (effect i s) := by
  simp [step, hs, hi, exec_eq_effect]

/-- Every step answers a next state. -/
theorem exists_step_next (s : State) : ∃ t, step s = .next t := by
  rcases step_cases s with ⟨-, h⟩ | ⟨-, k, -, h⟩ | ⟨-, i, -, h⟩
  · exact ⟨_, h⟩
  · exact ⟨_, h⟩
  · exact ⟨_, h.trans (exec_eq_effect i s)⟩

/-- The next state of a step: the same state, an error of the front end latched, or the effect of the instruction at pc. -/
theorem step_next_cases (h : step s = .next t) :
    (s.stopped = true ∧ t = s) ∨
      (s.stopped = false ∧ ∃ k, s.fetchDecode = .error k ∧ t = s.raise k) ∨
      (s.stopped = false ∧ ∃ i, s.fetchDecode = .ok i ∧ t = effect i s) := by
  rcases step_cases s with ⟨hs, he⟩ | ⟨hs, k, hk, he⟩ | ⟨hs, i, hi, he⟩ <;> rw [he] at h
  · cases h
    exact .inl ⟨hs, rfl⟩
  · cases h
    exact .inr (.inl ⟨hs, k, hk, rfl⟩)
  · exact .inr (.inr ⟨hs, i, hi, exec_next_iff.mp h⟩)

/-- A step that latches an error does nothing but raise it (R229, R231). -/
theorem eq_raise_of_step_latches (h : step s = .next t) (hs : s.fault = none) (ht : t.fault = some k) :
    t = s.raise k := by
  rcases step_next_cases h with ⟨-, rfl⟩ | ⟨-, j, -, rfl⟩ | ⟨-, i, -, rfl⟩
  · simp [hs] at ht
  · rw [State.raise_fault, Option.some.injEq] at ht
    rw [ht]
  · rcases effect_control i s with ⟨-, he⟩ | ⟨he, -⟩
    · rw [he, State.raise_fault, Option.some.injEq] at ht
      rw [he, ht]
    · simp [he, hs] at ht

/-- The decoder's refusals: an opcode in no row of the table, or a register operand of 8 or more (R106, R107). -/
theorem decode_error_cases {w : Window} {e : DecodeError} (h : decode w = .error e) :
    (e = .undefinedOpcode w.ir ∧ lookup w.ir = none) ∨ ∃ v : Byte, 8 ≤ v.toNat ∧ e = .invalidRegisterIndex v := by
  unfold decode decodeWith at h
  cases hl : lookupWith Op.opcode w.ir with
  | none =>
    rw [hl] at h
    cases h
    exact .inl ⟨rfl, hl⟩
  | some op =>
    rw [hl] at h
    exact .inr (assemble_error h)
end Step

/-! ### The invariant -/

section Invariant
variable {s t : State}

theorem State.latchOk_of_fault_none (h : s.fault = none) : s.LatchOk := by
  simp [State.LatchOk, h]

/-- An error of the front end leaves the latch consistent (R104, R222, R223). -/
theorem raise_latchOk {k : ErrorKind} (hpc : s.pc ≤ 256) (hrun : s.running = true) (hk : s.fetchDecode = .error k) :
    (s.raise k).LatchOk := by
  rcases State.fetchDecode_error.mp hk with ⟨h254, rfl⟩ | ⟨-, e, he, rfl⟩
  · simp [State.LatchOk, hrun, h254, hpc]
  · rcases decode_error_cases he with ⟨rfl, hl⟩ | ⟨v, hv, rfl⟩
    · simp [State.LatchOk, ErrorKind.ofDecode, hrun, hl]
    · simp [State.LatchOk, ErrorKind.ofDecode, hrun, hv]

/-- An instruction latches nothing, or a division by zero that has cleared the run flag (R225). -/
theorem effect_latchOk (i : Instr) (h : s.fault = none) : (effect i s).LatchOk := by
  rcases effect_control i s with ⟨-, he⟩ | ⟨he, -⟩
  · simp [he, State.LatchOk]
  · exact State.latchOk_of_fault_none (he.trans h)

theorem step_inv (hs : s.Inv) (h : step s = .next t) : t.Inv := by
  rcases step_next_cases h with ⟨-, rfl⟩ | ⟨hgo, k, hk, rfl⟩ | ⟨hgo, i, hi, rfl⟩
  · exact hs
  · exact ⟨hs.pcRange, hs.memWf, raise_latchOk hs.pcRange (State.stopped_eq_false.mp hgo).1 hk⟩
  · have hpc : s.pc ≤ 253 := (State.fetchDecode_ok.mp hi).1
    have hpc' := effect_pc_le i s
    exact ⟨by omega, effect_mem_wf i hs.memWf, effect_latchOk i (State.stopped_eq_false.mp hgo).2⟩

theorem reset_inv : State.reset.Inv :=
  ⟨Nat.zero_le _, State.reset_mem_wf, State.latchOk_of_fault_none rfl⟩

/-- A load into a machine with no error latched keeps the invariant (R226, R266). -/
theorem load_inv {image : List Byte} (hs : s.Inv) (hf : s.fault = none) (h : s.load image = .ok t) : t.Inv := by
  unfold State.load State.loadAt at h
  split at h
  · cases h
  · next hfit =>
    cases h
    exact ⟨hs.pcRange, Memory.writeImage_wf hs.memWf 0 image (Nat.le_of_not_gt hfit), State.latchOk_of_fault_none hf⟩

theorem run_inv {k : Nat} (hs : s.Inv) (h : Host.Core.run core k s = .next t) : t.Inv := by
  induction k generalizing s with
  | zero =>
    rw [run_zero] at h
    cases h
    exact hs
  | succ k ih =>
    obtain ⟨u, hu⟩ := exists_step_next s
    rw [run_succ_of_next hu] at h
    exact ih (step_inv hs hu) h
end Invariant

end Sys2Proof.Machine
end

section
/-! PROOFS. Canonical memories that read the same are equal (R36): the heads are forced to be one cell, then the tails. -/

namespace Sys2Proof.Machine

@[simp] theorem Memory.read_cons_self (c : Host.Cell) (m : Memory) : Memory.read (c :: m) c.1 = c.2 := if_pos rfl

theorem Memory.read_cons_of_ne {c : Host.Cell} {m : Memory} {a : Nat} (h : c.1 ≠ a) :
    Memory.read (c :: m) a = m.read a := if_neg h

/-- Below every listed address a memory reads as initialised. -/
theorem Memory.read_of_forall_lt {m : Memory} {a : Nat} (h : ∀ c ∈ m, a < c.1) : m.read a = Config.memInit := by
  induction m with
  | nil => rfl
  | cons c m ih =>
    rw [Memory.read_cons_of_ne (h c List.mem_cons_self).ne']
    exact ih fun d hd => h d (List.mem_cons_of_mem _ hd)

theorem Memory.wf_cons {c : Host.Cell} {m : Memory} (h : Memory.wf (c :: m)) :
    (∀ d ∈ m, c.1 < d.1) ∧ c.2 ≠ Config.memInit ∧ m.wf := by
  obtain ⟨hsorted, hcells⟩ := h
  obtain ⟨hhead, htail⟩ := List.pairwise_cons.mp hsorted
  exact ⟨hhead, (hcells c List.mem_cons_self).2, htail, fun d hd => hcells d (List.mem_cons_of_mem _ hd)⟩

theorem Memory.eq_nil_of_read {m : Memory} (h : m.wf) (hread : ∀ a, m.read a = Config.memInit) : m = [] := by
  cases m with
  | nil => rfl
  | cons c m =>
    obtain ⟨-, hc, -⟩ := Memory.wf_cons h
    exact absurd ((Memory.read_cons_self c m).symm.trans (hread c.1)) hc

/-- The first address of a canonical memory is not below that of another one that reads the same there: below its own first
address the other reads as initialised. -/
theorem Memory.head_le_of_read_eq {c d : Host.Cell} {m n : Memory} (hm : Memory.wf (c :: m)) (hn : Memory.wf (d :: n))
    (hread : Memory.read (c :: m) c.1 = Memory.read (d :: n) c.1) : d.1 ≤ c.1 := by
  obtain ⟨-, hc, -⟩ := Memory.wf_cons hm
  obtain ⟨hlt, -, -⟩ := Memory.wf_cons hn
  by_contra! hcd
  have hbelow : ∀ e ∈ d :: n, c.1 < e.1 := List.forall_mem_cons.mpr ⟨hcd, fun e he => hcd.trans (hlt e he)⟩
  rw [Memory.read_cons_self, Memory.read_of_forall_lt hbelow] at hread
  exact hc hread

/-- Tails of canonical memories with one head read the same when the whole memories do. -/
theorem Memory.read_tail_eq {c : Host.Cell} {m n : Memory} (hm : ∀ e ∈ m, c.1 < e.1) (hn : ∀ e ∈ n, c.1 < e.1)
    (hread : ∀ a, Memory.read (c :: m) a = Memory.read (c :: n) a) (a : Nat) : m.read a = n.read a := by
  by_cases ha : c.1 = a
  · subst ha
    rw [Memory.read_of_forall_lt hm, Memory.read_of_forall_lt hn]
  · rw [← Memory.read_cons_of_ne ha, hread a, Memory.read_cons_of_ne ha]

theorem Memory.eq_of_read_eq {m n : Memory} (hm : m.wf) (hn : n.wf) (hread : ∀ a, m.read a = n.read a) : m = n := by
  induction m generalizing n with
  | nil => exact (Memory.eq_nil_of_read hn fun a => (hread a).symm).symm
  | cons c m ih =>
    cases n with
    | nil => exact Memory.eq_nil_of_read hm hread
    | cons d n =>
      have haddr : c.1 = d.1 :=
        Nat.le_antisymm (Memory.head_le_of_read_eq hn hm (hread d.1).symm) (Memory.head_le_of_read_eq hm hn (hread c.1))
      have hvalue : c.2 = d.2 := by
        rw [← Memory.read_cons_self c m, hread c.1, haddr, Memory.read_cons_self]
      obtain rfl : c = d := Prod.ext haddr hvalue
      obtain ⟨hm', -, hmwf⟩ := Memory.wf_cons hm
      obtain ⟨hn', -, hnwf⟩ := Memory.wf_cons hn
      rw [ih hmwf hnwf (Memory.read_tail_eq hm' hn' hread)]

end Sys2Proof.Machine
end

section
/-! PROOFS. The bits that CMP and INT write (R146, R204), and the digits of a decimal event (R202). -/

namespace Sys2Proof.Machine

/-- A compare keeps bits 7:3 of FL (R146). -/
theorem cmpFlags_getLsbD_of_ge (fl u v : Byte) {k : Nat} (h3 : 3 ≤ k) (h8 : k < 8) :
    (cmpFlags fl u v).getLsbD k = fl.getLsbD k := by
  unfold cmpFlags
  interval_cases k <;> (split_ifs <;> simp)

/-- E, G and L after a compare (R146). -/
theorem cmpFlags_getLsbD_low (fl u v : Byte) :
    (cmpFlags fl u v).getLsbD 0 = decide (u.toNat = v.toNat) ∧
      (cmpFlags fl u v).getLsbD 1 = decide (v.toNat < u.toNat) ∧
      (cmpFlags fl u v).getLsbD 2 = decide (u.toNat < v.toNat) := by
  rcases Nat.lt_trichotomy u.toNat v.toNat with h | h | h
  · simp [cmpFlags, h, h.ne, h.not_gt]
  · simp [cmpFlags, h]
  · simp [cmpFlags, h, h.ne', h.le]

theorem interruptBit_getLsbD (n : Byte) {k : Nat} (hk : k < 8) : (interruptBit n).getLsbD k = decide (n.toNat = k) := by
  have h : (interruptBit n).toNat = 2 ^ n.toNat % 2 ^ 8 := trunc8_natCast _
  rw [BitVec.getLsbD, h, Nat.testBit_mod_two_pow, Nat.testBit_two_pow]
  simp [hk]

theorem interruptBit_of_ge {n : Byte} (h : 8 ≤ n.toNat) : interruptBit n = 0 := by
  have hdvd : 2 ^ 8 ∣ 2 ^ n.toNat := pow_dvd_pow 2 h
  exact BitVec.eq_of_toNat_eq ((trunc8_natCast _).trans (Nat.mod_eq_zero_of_dvd hdvd))

/-- The decimal digits of a byte as numbers, the most significant first. -/
def digitValues (v : Byte) : List Nat :=
  if v.toNat < 10 then [v.toNat]
  else if v.toNat < 100 then [v.toNat / 10, v.toNat % 10]
  else [v.toNat / 100, v.toNat / 10 % 10, v.toNat % 10]

/-- The characters the machine prints are those of the digit values. -/
theorem decimalDigits_eq_map_digitValues (v : Byte) :
    decimalDigits v = (digitValues v).map fun d => Char.ofNat (48 + d) := by
  have hv := v.isLt
  unfold decimalDigits digitValues digitChar
  split_ifs with h10 h100
  · simp [Nat.mod_eq_of_lt h10]
  · simp [show v.toNat / 10 % 10 = v.toNat / 10 by omega]
  · simp [show v.toNat / 100 % 10 = v.toNat / 100 by omega]

/-- The digit values are decimal digits without a leading zero, and the number they spell is the byte. -/
theorem digitValues_spec (v : Byte) : (∀ d ∈ digitValues v, d < 10) ∧ digitValues v ≠ [] ∧
    ((digitValues v).head? = some 0 → digitValues v = [0]) ∧
    (digitValues v).foldl (fun n d => 10 * n + d) 0 = v.toNat := by
  have hv := v.isLt
  unfold digitValues
  split_ifs with h10 h100
  · simp [h10]
  · simp
    omega
  · simp
    omega

end Sys2Proof.Machine
end

section
/-! PROOFS. The obligations about the machine's state, each assembled from the rules above. -/

namespace Sys2Proof

open Machine

/-- Settles O20: a stopped step changes nothing, a front-end error only latches, and an instruction starts with pc at 253 or
less, writes one byte of memory at most and latches nothing but a division by zero. -/
theorem stepKeepsInvariant : Obligations.StepKeepsInvariant := fun _ _ => step_inv

/-- Settles O21. -/
theorem resetMeetsInvariant : Obligations.ResetMeetsInvariant := reset_inv

/-- Settles O22, by induction on the number of cycles from the loaded reset state. -/
theorem invariantHoldsAfterLoadAndRun : Obligations.InvariantHoldsAfterLoadAndRun :=
  fun _ _ _ _ hload hrun => run_inv (load_inv reset_inv rfl hload) hrun

/-- Settles O17, by the cases of a step. -/
theorem runFlagHistory : Obligations.RunFlagHistory := by
  refine ⟨rfl, fun s => ⟨_, exec_hlt s, rfl⟩, fun s t h hs => ?_, fun s t h hs ht => ?_, fun s t k h hs ht => ?_⟩
  · have hstop : s.stopped = true := by simp [State.stopped, hs]
    rw [step_of_stopped hstop] at h
    cases h
    exact hs
  · rcases step_next_cases h with ⟨-, rfl⟩ | ⟨-, k, -, rfl⟩ | ⟨-, i, hi, rfl⟩
    · simp [hs] at ht
    · exact .inr (by simpa [hs] using ht)
    · rcases effect_control i s with ⟨-, he⟩ | ⟨-, he | rfl⟩
      · exact .inr (by rw [he, State.raise_fault])
      · simp [he, hs] at ht
      · exact .inl hi
  · rw [eq_raise_of_step_latches h hs ht, State.raise_running]
    exact ⟨fun hk => if_pos hk, fun hk => if_neg hk⟩

/-- Settles O18: a step appends the events of the instruction it runs, from any output stream. -/
theorem outputGrowsAndIsNeverRead : Obligations.OutputGrowsAndIsNeverRead := by
  refine ⟨rfl, fun s t h => ?_⟩
  rcases step_next_cases h with ⟨hs, rfl⟩ | ⟨hs, k, hk, rfl⟩ | ⟨hs, i, hi, rfl⟩
  · refine ⟨[], by simp, .inl rfl, fun o => ?_⟩
    rw [List.append_nil]
    exact step_of_stopped hs
  · refine ⟨[], by simp, .inl rfl, fun o => ?_⟩
    rw [List.append_nil]
    exact step_of_error (s := s.withOut o) hs hk
  · refine ⟨emits i s, effect_out i s, ?_, fun o => ?_⟩
    · rcases emits_cases i s with he | ⟨a, rfl, he⟩ | ⟨a, rfl, he⟩
      · exact .inl he
      · exact .inr (.inl ⟨a, hi, he⟩)
      · exact .inr (.inr ⟨a, hi, he⟩)
    · exact (step_of_instr (s := s.withOut o) hs hi).trans (congrArg _ (effect_withOut i s o))

/-- Settles O31: the front end does not read the registers, and `effect_setReg` covers the instruction. -/
theorem interruptRegistersAreInert : Obligations.InterruptRegistersAreInert := by
  intro s t r v hr h hi
  have hr7 : r ≠ .r7 := by rcases hr with rfl | rfl <;> decide
  rcases step_next_cases h with ⟨hs, rfl⟩ | ⟨hs, k, hk, rfl⟩ | ⟨hs, i, hd, rfl⟩
  · exact step_of_stopped hs
  · exact step_of_error (s := s.setReg r v) hs hk
  · obtain ⟨hnames, hiret, hint⟩ := hi i hd
    rw [← effect_setReg s v i hr7 hnames hiret hint]
    exact step_of_instr (s := s.setReg r v) hs hd

/-- Settles O30. -/
theorem registerFrame : Obligations.RegisterFrame := by
  intro i s t h r hr
  rw [exec_next_iff.mp h]
  exact effect_reg_of_notMem_writes i s hr

/-- Settles O38: IRET overwrites FL with a popped byte, so its answer from another FL is the same state by computation. -/
theorem onlyCmpAndIretWriteFlags : Obligations.OnlyCmpAndIretWriteFlags := by
  refine ⟨fun i s t h hcmp hiret => ?_, fun s f => rfl⟩
  rw [exec_next_iff.mp h]
  exact effect_fl i s hcmp hiret

/-- Settles O27, by induction on the list of cells. -/
theorem canonicalMemoryIsUnique : Obligations.CanonicalMemoryIsUnique := fun _ _ => Memory.eq_of_read_eq

/-- Settles O39. -/
theorem compareSetsExactlyOneFlag : Obligations.CompareSetsExactlyOneFlag := by
  intro a b s
  obtain ⟨hE, hG, hL⟩ := cmpFlags_getLsbD_low s.fl (s.reg a) (s.reg b)
  exact ⟨_, exec_cmp a b s, hE, hG, hL, fun k => cmpFlags_getLsbD_of_ge _ _ _, rfl, fun _ _ => rfl, fun _ => rfl,
    rfl, rfl, rfl⟩

/-- Settles O53, with `digitValues` as the list of digits. -/
theorem outputText : Obligations.OutputText := by
  refine ⟨fun v => ⟨digitValues v, ?_⟩, fun v hv => if_pos hv⟩
  obtain ⟨hlt, hne, hzero, hval⟩ := digitValues_spec v
  exact ⟨hlt, hne, hzero, hval, by rw [OutEvent.text, decimalDigits_eq_map_digitValues]⟩

/-- Settles O54. -/
theorem interruptSetsOneBit : Obligations.InterruptSetsOneBit := by
  intro a s
  refine ⟨_, exec_int a s, fun k hk => ?_, fun h8 => ?_, rfl, fun r hr => ?_, fun _ => rfl, rfl, rfl, rfl, rfl⟩
  · simp [interruptBit_getLsbD _ hk]
  · simp [interruptBit_of_ge h8]
  · have hr6 : r ≠ .r6 := by simpa using hr
    simp [hr6]

/-- Settles O24. -/
theorem resetValues : Obligations.ResetValues := by
  refine ⟨rfl, fun r hr => ?_, rfl, rfl, rfl, rfl, rfl, fun a => rfl⟩
  cases r with
  | r7 => exact absurd rfl hr
  | _ => rfl

/-- Settles O52. -/
theorem outputResults : Obligations.OutputResults := fun a s =>
  ⟨⟨_, exec_prn a s, rfl, rfl, fun _ _ => rfl, fun _ => rfl, rfl, rfl, rfl⟩,
    ⟨_, exec_pra a s, rfl, rfl, fun _ _ => rfl, fun _ => rfl, rfl, rfl, rfl⟩⟩

end Sys2Proof
end

section
/-! PROOFS. The memory port's range check (R52) and a load of an image (R266, R267): each operation answers in one of two
ways, and which one depends on an address or a length alone. -/

namespace Sys2Proof.Machine

/-! ### The memory port -/

section Port
variable (s : State) {addr : Nat} (v : Byte)

theorem State.memRead_of_lt (h : addr < Config.memSize) : s.memRead addr = .ok (s.mem.read addr) := if_pos h

theorem State.memRead_of_ge (h : Config.memSize ≤ addr) : s.memRead addr = .error (.outOfRangeMemoryAccess addr) :=
  if_neg (Nat.not_lt.mpr h)

theorem State.memWrite_of_lt (h : addr < Config.memSize) :
    s.memWrite addr v = .ok { s with mem := s.mem.write addr v } := if_pos h

theorem State.memWrite_of_ge (h : Config.memSize ≤ addr) :
    s.memWrite addr v = .error (.outOfRangeMemoryAccess addr) := if_neg (Nat.not_lt.mpr h)

/-- A data read is the port's read, whose range check a byte address always passes (R53). -/
theorem State.memRead_byte (a : Byte) : s.memRead a.toNat = .ok (s.load8 a) := s.memRead_of_lt a.isLt

/-- A data write is the port's write, whose range check a byte address always passes (R53). -/
theorem State.memWrite_byte (a : Byte) : s.memWrite a.toNat v = .ok (s.store8 a v) := s.memWrite_of_lt v a.isLt

end Port

/-! ### Loading an image at origin 0 -/

section Load
variable (s : State) {image : List Byte}

theorem State.load_of_fits (h : image.length ≤ Config.memSize) :
    s.load image = .ok { s with mem := s.mem.writeImage 0 image } :=
  if_neg (by omega)

theorem State.load_of_tooLarge (h : Config.memSize < image.length) : s.load image = .error .programTooLarge :=
  if_pos (by omega)

end Load

section WriteImage
variable (m : Memory) (image : List Byte)

theorem Memory.read_writeImage_zero_of_lt {i : Nat} (h : i < image.length) :
    (m.writeImage 0 image).read i = image[i] := by
  have hin : 0 ≤ i ∧ i < 0 + image.length := by omega
  rw [Memory.read_writeImage, dif_pos hin]
  rfl

theorem Memory.read_writeImage_zero_of_ge {a : Nat} (h : image.length ≤ a) :
    (m.writeImage 0 image).read a = m.read a := by
  have hout : ¬ (0 ≤ a ∧ a < 0 + image.length) := by omega
  rw [Memory.read_writeImage, dif_neg hout]

end WriteImage

end Sys2Proof.Machine
end

section
/-! PROOFS. The obligations about memory, each assembled from the rules above. -/

namespace Sys2Proof

open Machine

/-- Settles O25: the image's length alone decides whether the load fits, and a load that fits writes the image and nothing
else. -/
theorem loadPlacesImageOrRefuses : Obligations.LoadPlacesImageOrRefuses := by
  refine fun s image => ⟨fun hfit => ⟨_, s.load_of_fits hfit, fun i hi => ?_, fun a ha => ?_, rfl, rfl, rfl, ?_⟩,
    fun hlarge => s.load_of_tooLarge hlarge⟩
  · exact s.mem.read_writeImage_zero_of_lt image hi
  · exact s.mem.read_writeImage_zero_of_ge image ha
  · exact ⟨rfl, rfl, rfl⟩

/-- Settles O26. -/
theorem memoryPortRangeCheck : Obligations.MemoryPortRangeCheck := fun s v =>
  ⟨fun addr => ⟨s.memRead_byte addr, s.memWrite_byte v addr⟩,
    fun _ haddr => ⟨s.memRead_of_ge haddr, s.memWrite_of_ge v haddr⟩⟩

end Sys2Proof
end

section
/-! PROOFS. The decoder and the encoder, each characterised once: an instruction is decoded exactly when its bytes are the
first bytes of the window, and refused exactly when the index check of WellFormed.lean finds a bad byte. -/

namespace Sys2Proof

open Machine

/-! ### The opcode map -/

/-- The dispatch table lists no opcode twice: each opcode finds its own mnemonic (R75, R76). -/
theorem lookup_opcode (op : Op) : lookup op.opcode = some op := by cases op <;> rfl

theorem Op.opcode_injective (p q : Op) (h : p.opcode = q.opcode) : p = q :=
  Option.some.inj (by rw [← lookup_opcode p, h, lookup_opcode])

/-- Bits 7:6 of a default opcode count the operand slots of its mnemonic (R72). -/
theorem operandCountOf_opcode (op : Op) : operandCountOf op.opcode = op.operandCount := by cases op <;> rfl

/-- Under an injective map the lookup inverts the map (R75). -/
theorem lookupWith_eq_some_iff {m : Op → Byte} (inj : ∀ p q, m p = m q → p = q) {ir : Byte} {op : Op} :
    lookupWith m ir = some op ↔ m op = ir :=
  ⟨lookupWith_sound, fun h => h ▸ lookupWith_of_injective inj op⟩

/-! ### What the index check answers -/

/-- The operand bytes that a dispatched instruction uses, the others left out (R77). -/
def Raw.operands (r : Raw) : List Byte := [r.opA, r.opB].take r.op.operandCount

theorem Raw.length_operands (r : Raw) : r.operands.length = r.op.operandCount := by
  simp [Raw.operands, r.op.operandCount_le]

/-- An instruction's bytes are its opcode and then its operand bytes (R70). -/
theorem encodeWith_eq_cons (m : Op → Byte) (i : Instr) : encodeWith m i = m i.op :: i.toRaw.operands := by
  rw [encodeWith, Nat.add_comm]
  rfl

theorem encodeWith_length (m : Op → Byte) (i : Instr) : (encodeWith m i).length = 1 + i.op.operandCount := by
  rw [encodeWith_eq_cons, List.length_cons, Raw.length_operands, Nat.add_comm]
  rfl

@[simp] theorem oneReg_toByte (mk : Reg → Instr) (a : Reg) : oneReg mk a.toByte = .ok (mk a) := by simp [oneReg]

@[simp] theorem twoRegs_toByte (mk : Reg → Reg → Instr) (a b : Reg) :
    twoRegs mk a.toByte b.toByte = .ok (mk a b) := by simp [twoRegs]

/-- What the index check lets through has the mnemonic and the operand bytes that were dispatched (R107). -/
theorem op_operands_of_assemble {r : Raw} {i : Instr} (h : assemble r = .ok i) :
    i.op = r.op ∧ i.toRaw.operands = r.operands := by
  obtain ⟨op, va, vb⟩ := r
  cases op with
  | nop | hlt | ret | iret =>
    cases h
    exact ⟨rfl, rfl⟩
  | push | pop | prn | pra | call | int | jmp | jeq | jne | jgt | jlt | jle | jge | inc | dec | not | ldi =>
    obtain ⟨a, rfl, rfl⟩ := oneReg_ok h
    exact ⟨rfl, rfl⟩
  | ld | st | add | sub | mul | div | mod | cmp | and | or | xor | shl | shr =>
    obtain ⟨a, b, rfl, rfl, rfl⟩ := twoRegs_ok h
    exact ⟨rfl, rfl⟩

/-- An instruction's own mnemonic and operand bytes pass the index check and give it back (R107). -/
theorem assemble_toRaw (i : Instr) : assemble i.toRaw = .ok i := by
  cases i <;> simp [Instr.toRaw, assemble]

/-- The index check does not read the operand bytes that an instruction does not have (R74, R81). -/
theorem assemble_congr {r q : Raw} (hop : r.op = q.op) (h : r.operands = q.operands) : assemble r = assemble q := by
  obtain ⟨op, va, vb⟩ := r
  obtain ⟨op', va', vb'⟩ := q
  cases hop
  cases op <;> cases h <;> rfl

/-- The index check answers an instruction exactly when the mnemonic and the used operand bytes are the instruction's. -/
theorem assemble_eq_ok_iff {r : Raw} {i : Instr} :
    assemble r = .ok i ↔ i.op = r.op ∧ i.toRaw.operands = r.operands :=
  ⟨op_operands_of_assemble, fun ⟨hop, h⟩ => (assemble_congr hop h).symm.trans (assemble_toRaw i)⟩

/-- A slot accepts a byte unless it is a register slot and the byte is 8 or more (R73, R74, R81). -/
theorem Slot.accepts_iff {k : Slot} {v : Byte} : k.accepts v = true ↔ (k = .reg → v.toNat < 8) := by
  cases k <;> simp [Slot.accepts]

theorem oneReg_eq_error_iff {mk : Reg → Instr} {v u : Byte} :
    oneReg mk v = .error (.invalidRegisterIndex u) ↔ 8 ≤ v.toNat ∧ v = u := by
  rcases regOperand_cases v with ⟨a, ha, rfl⟩ | ⟨hv, ha⟩
  · simp [a.toByte_lt]
  · simp [oneReg, ha, hv]

theorem twoRegs_eq_error_iff {mk : Reg → Reg → Instr} {v w u : Byte} :
    twoRegs mk v w = .error (.invalidRegisterIndex u) ↔
      8 ≤ v.toNat ∧ v = u ∨ v.toNat < 8 ∧ 8 ≤ w.toNat ∧ w = u := by
  rcases regOperand_cases v with ⟨a, ha, rfl⟩ | ⟨hv, ha⟩
  · rcases regOperand_cases w with ⟨b, hb, rfl⟩ | ⟨hw, hb⟩
    · simp [a.toByte_lt, b.toByte_lt]
    · simp [twoRegs, hb, hw, a.toByte_lt]
  · simp [twoRegs, ha, hv]

/-- The assembler refuses exactly the byte that the well-formedness check of R107 reports. -/
theorem assemble_eq_error_iff {r : Raw} {v : Byte} :
    assemble r = .error (.invalidRegisterIndex v) ↔ r.badIndex? = some v := by
  obtain ⟨op, va, vb⟩ := r
  cases op with
  | nop | hlt | ret | iret => exact ⟨nofun, nofun⟩
  | push | pop | prn | pra | call | int | jmp | jeq | jne | jgt | jlt | jle | jge | inc | dec | not | ldi =>
    refine oneReg_eq_error_iff.trans ?_
    simp [Raw.badIndex?, Op.slotA, Op.slotB, Slot.accepts]
  | ld | st | add | sub | mul | div | mod | cmp | and | or | xor | shl | shr =>
    refine twoRegs_eq_error_iff.trans ?_
    rcases Nat.lt_or_ge va.toNat 8 with hA | hA
    · simp [Raw.badIndex?, Op.slotA, Op.slotB, Slot.accepts, hA, Nat.not_le.mpr hA]
    · simp [Raw.badIndex?, Op.slotA, Slot.accepts, hA, Nat.not_lt.mpr hA]

/-- Well-formed operand bytes assemble to an instruction of the mnemonic (R107). -/
theorem exists_assemble_of_wellFormed {r : Raw} (h : r.WellFormed) : ∃ i, assemble r = .ok i ∧ i.op = r.op := by
  cases hr : assemble r with
  | ok i =>
    obtain ⟨hop, -⟩ := op_operands_of_assemble hr
    exact ⟨i, rfl, hop⟩
  | error e =>
    obtain ⟨v, -, rfl⟩ := assemble_error hr
    rw [Raw.WellFormed, assemble_eq_error_iff.mp hr] at h
    cases h

/-! ### What the decoder answers -/

/-- The decoder reads an instruction exactly when its encoding is the first bytes of the window (R70, R105). -/
theorem decodeWith_eq_ok_iff {m : Op → Byte} (inj : ∀ p q, m p = m q → p = q) {w : Window} {i : Instr} :
    decodeWith m w = .ok i ↔ encodeWith m i <+: w.bytes := by
  have hpre : encodeWith m i <+: w.bytes ↔
      m i.op = w.ir ∧ i.toRaw.operands = (Raw.mk i.op w.opA w.opB).operands := by
    rw [encodeWith_eq_cons, Window.bytes, List.cons_prefix_cons, List.prefix_iff_eq_take, Raw.length_operands]
    rfl
  rw [hpre, ← lookupWith_eq_some_iff inj, decodeWith]
  cases hl : lookupWith m w.ir with
  | none => simp
  | some op =>
    simp only [assemble_eq_ok_iff, Option.some.injEq, eq_comm (a := op)]
    exact and_congr_right fun hop => by rw [hop]

theorem decode_eq_ok_iff {w : Window} {i : Instr} : decode w = .ok i ↔ encode i <+: w.bytes :=
  decodeWith_eq_ok_iff Op.opcode_injective

/-- An opcode of the table is dispatched to its mnemonic's index check (R105, R107). -/
theorem decode_of_opcode_eq {w : Window} {op : Op} (h : op.opcode = w.ir) :
    decode w = assemble ⟨op, w.opA, w.opB⟩ := by
  rw [decode, decodeWith, (lookupWith_eq_some_iff Op.opcode_injective).mpr h]

/-- An undefined opcode is refused with the byte itself, exactly when no mnemonic has it (R78, R106). -/
theorem decode_eq_undefinedOpcode_iff {w : Window} {v : Byte} :
    decode w = .error (.undefinedOpcode v) ↔ v = w.ir ∧ ∀ op : Op, op.opcode ≠ w.ir := by
  constructor
  · intro h
    rcases decode_error_cases h with ⟨he, hl⟩ | ⟨u, -, he⟩
    · cases he
      exact ⟨rfl, lookupWith_none.mp hl⟩
    · cases he
  · rintro ⟨rfl, h⟩
    rw [decode, decodeWith, lookupWith_none.mpr h]

/-- Three bytes or more in memory start with a window (R102, R103). -/
theorem Window.exists_ofBytes?_eq_some {l : List Byte} (h : 3 ≤ l.length) :
    ∃ w, Window.ofBytes? l = some w ∧ w.bytes <+: l := by
  match l, h with
  | ir :: opA :: opB :: rest, _ => exact ⟨⟨ir, opA, opB⟩, rfl, rest, rfl⟩

/-- An instruction and any two bytes after it give a window that starts with the instruction's bytes (R103). -/
theorem exists_window_of_encodeWith (m : Op → Byte) (i : Instr) (x y : Byte) :
    ∃ w, Window.ofBytes? (encodeWith m i ++ [x, y]) = some w ∧ encodeWith m i <+: w.bytes := by
  have hlen := encodeWith_length m i
  have hcount := i.op.operandCount_le
  obtain ⟨w, hw, hpre⟩ := Window.exists_ofBytes?_eq_some (l := encodeWith m i ++ [x, y])
    (by simp only [List.length_append, List.length_cons, List.length_nil]; omega)
  refine ⟨w, hw, List.prefix_of_prefix_length_le (List.prefix_append ..) hpre ?_⟩
  show (encodeWith m i).length ≤ 3
  omega

/-- Under an injective map the decoder reads what the encoder wrote, whatever two bytes follow (R70, R75). -/
theorem decodeWith_encodeWith {m : Op → Byte} (inj : ∀ p q, m p = m q → p = q) (i : Instr) (x y : Byte) :
    ∃ w, Window.ofBytes? (encodeWith m i ++ [x, y]) = some w ∧ decodeWith m w = .ok i := by
  obtain ⟨w, hw, hpre⟩ := exists_window_of_encodeWith m i x y
  exact ⟨w, hw, (decodeWith_eq_ok_iff inj).mpr hpre⟩

end Sys2Proof
end

section
/-! PROOFS. How far pc moves when no error is raised and the instruction sets no pc of its own (R109, R118), and the frame of
an instruction that writes one register. -/

namespace Sys2Proof.Machine

/-- A DIV or MOD that raises no error moves pc past its three bytes (R118). -/
theorem State.commitQuotient_pc {s : State} {a b : Reg} {v : Byte} (h : (s.commitQuotient a b v).fault = none) :
    (s.commitQuotient a b v).pc = s.pc + 3 := by
  by_cases hb : s.reg b = 0
  · rw [s.commitQuotient_of_zero v hb] at h
    cases h
  · rw [s.commitQuotient_of_ne_zero v hb, State.advance_pc, State.setReg_pc]

/-- The sequencer's advance: one byte for the opcode and one for each operand (R109, R118). -/
theorem effect_pc {i : Instr} {s : State} (hset : i.op.setsPc = false) (hfault : (effect i s).fault = none) :
    (effect i s).pc = s.pc + 1 + i.op.operandCount := by
  cases i with
  | ret | iret | call a | jmp a | jeq a | jne a | jgt a | jlt a | jle a | jge a => cases hset
  | div a b | mod a b => exact State.commitQuotient_pc hfault
  | _ => rfl

/-- Writing one register and moving on changes nothing but that register and pc. -/
theorem onlyRegs_setReg_advance (s : State) (a : Reg) (v : Byte) (n : Nat) :
    OnlyRegs s ((s.setReg a v).advance n) [a] := by
  refine ⟨fun r hr => ?_, fun _ => rfl, rfl, rfl, rfl, rfl⟩
  have hra : r ≠ a := by simpa using hr
  simp [hra]

end Sys2Proof.Machine
end

section
/-! PROOFS. The obligations about the encoding, the sequencer's advance and the loads, each assembled from the rules above. -/

namespace Sys2Proof

open Machine

/-- Settles O1: the window that the instruction and two more bytes give starts with the instruction's encoding, and a window
decodes to the instruction whose encoding it starts with. -/
theorem decodeReadsEncodedInstruction : Obligations.DecodeReadsEncodedInstruction :=
  decodeWith_encodeWith Op.opcode_injective

/-- Settles O2: an instruction is decoded only when the window starts with its encoding, and its length is counted by
bits 7:6 of the opcode. -/
theorem encodingRestoresDecodedBytes : Obligations.EncodingRestoresDecodedBytes := by
  intro w i h
  have hpre : encode i <+: w.bytes := decode_eq_ok_iff.mp h
  have hop : i.op.opcode = w.ir := by
    rw [encode, encodeWith_eq_cons] at hpre
    exact (List.cons_prefix_cons.mp hpre).1
  rw [← hop, operandCountOf_opcode, ← encode_length]
  exact List.prefix_iff_eq_take.mp hpre

/-- Settles O3. -/
theorem roundTripUnderEveryOpcodeMap : Obligations.RoundTripUnderEveryOpcodeMap := by
  rintro m ⟨inj, hcount⟩ i x y
  refine ⟨?_, decodeWith_encodeWith inj i x y⟩
  rw [encodeWith_length, hcount]

/-- Settles O4. -/
theorem defaultOpcodeMapMeetsConstraints : Obligations.DefaultOpcodeMapMeetsConstraints :=
  ⟨Op.opcode_injective, operandCountOf_opcode⟩

/-- Settles O5: a byte with bits 7:6 = 11 would have three operands, and no mnemonic has more than two. -/
theorem undefinedOpcodeExactlyOutsideTable : Obligations.UndefinedOpcodeExactlyOutsideTable := by
  refine fun w v => ⟨decode_eq_undefinedOpcode_iff, fun h3 => ?_⟩
  refine decode_eq_undefinedOpcode_iff.mpr ⟨rfl, fun op hop => ?_⟩
  have hle := op.operandCount_le
  rw [← operandCountOf_opcode, hop, h3] at hle
  omega

/-- Settles O6: an opcode of the table is decoded by the index check, which refuses the byte that `Raw.badIndex?` finds. -/
theorem indexCheckCoversRegisterSlots : Obligations.IndexCheckCoversRegisterSlots := by
  intro w op hop
  rw [decode_of_opcode_eq hop]
  refine ⟨fun hA h8 => ?_, fun hA hB h8 => ?_, fun hA hB => ?_⟩
  · have hbad : op.slotA.accepts w.opA = false := by simp [hA, Slot.accepts, h8]
    exact assemble_eq_error_iff.mpr (by simp [Raw.badIndex?, hbad])
  · have hbad : op.slotB.accepts w.opB = false := by simp [hB, Slot.accepts, h8]
    exact assemble_eq_error_iff.mpr (by simp [Raw.badIndex?, Slot.accepts_iff.mpr hA, hbad])
  · have hwf : (Raw.mk op w.opA w.opB).WellFormed := by
      simp [Raw.WellFormed, Raw.badIndex?, Slot.accepts_iff.mpr hA, Slot.accepts_iff.mpr hB]
    exact exists_assemble_of_wellFormed hwf

/-- Settles O19. -/
theorem sequencerAdvancesByOpcodeLength : Obligations.SequencerAdvancesByOpcodeLength := by
  intro i s t h hset _ ht
  obtain rfl := exec_next_iff.mp h
  rw [effect_pc hset ht, operandCountOf_opcode]

/-- Settles O40. -/
theorem loadResults : Obligations.LoadResults := fun a b imm s =>
  ⟨⟨_, exec_ldi a imm s, by simp, rfl, onlyRegs_setReg_advance s a imm 3⟩,
    ⟨_, exec_ld a b s, by simp [State.load8], rfl, onlyRegs_setReg_advance s a _ 3⟩⟩

end Sys2Proof
end

section
/-! PROOFS. A cycle that is not stopped and begins inside or past the fetch window (R103, R104), the repetition of cycles
(R112, R113), and what the next fetch reads after a store (R62). -/

namespace Sys2Proof.Machine

/-- An error other than a division by zero leaves the run flag, so raising it sets the latch alone (R243). -/
theorem State.raise_of_ne_divisionByZero (s : State) {k : ErrorKind} (h : k ≠ .divisionByZero) :
    s.raise k = { s with fault := some k } := by
  rw [State.raise, if_neg h]

/-- From 254 to 256 the first address out of range is 256 (R104). -/
theorem State.fetchDecode_past_window {s : State} (hlow : 254 ≤ s.pc) (hhigh : s.pc ≤ 256) :
    s.fetchDecode = .error (.outOfRangeMemoryAccess 256) := by
  have hmax : 256 = max 256 s.pc := (Nat.max_eq_left hhigh).symm
  exact State.fetchDecode_error.mpr (.inl ⟨hlow, congrArg _ hmax⟩)

/-! ### Runs -/

/-- No number of cycles changes a stopped machine (R101). -/
theorem run_of_stopped {s : State} (h : s.stopped = true) (k : Nat) : Host.Core.run core k s = .next s := by
  induction k with
  | zero => exact run_zero s
  | succ k ih => rw [run_succ_of_next (step_of_stopped h), ih]

theorem runFor_of_stopped {s : State} (h : s.stopped = true) (k : Nat) : runFor k s = .next s := by
  cases k with
  | zero => rfl
  | succ k => exact if_pos h

/-- A fuelled run of a machine that is not stopped takes one cycle and continues from its next state (R112). -/
theorem runFor_succ_of_next {s t : State} (hs : s.stopped = false) (h : step s = .next t) (k : Nat) :
    runFor (k + 1) s = runFor k t := by
  simp [runFor, hs, h]

/-! ### A store, then a fetch -/

/-- A byte read after a store is the stored one at the store's address and the old one elsewhere (R51, R53). -/
theorem State.store8_mem_read (s : State) (addr v : Byte) (x : Nat) :
    (s.store8 addr v).mem.read x = if addr.toNat = x then v else s.mem.read x := by
  simp only [State.store8_mem, Memory.read_write, eq_comm]

end Sys2Proof.Machine
end

section
/-! PROOFS. The obligations about the engine's cycle, each assembled from the rules above. -/

namespace Sys2Proof

open Machine

/-- Settles O8: such a machine is not stopped, and its front end finds the instruction. -/
theorem stepRunsDecodedInstruction : Obligations.StepRunsDecodedInstruction := by
  intro s i hrun hfault hpc hdecode
  have hgo : s.stopped = false := State.stopped_eq_false.mpr ⟨hrun, hfault⟩
  have hfront : s.fetchDecode = .ok i := State.fetchDecode_ok.mpr ⟨hpc, hdecode⟩
  rw [step_of_instr hgo hfront, exec_eq_effect]

/-- Settles O10: the front end fails with address 256, and raising that error sets the latch alone. -/
theorem fetchPastWindowRaises : Obligations.FetchPastWindowRaises := by
  intro s hrun hfault hlow hhigh
  have hgo : s.stopped = false := State.stopped_eq_false.mpr ⟨hrun, hfault⟩
  rw [step_of_error hgo (State.fetchDecode_past_window hlow hhigh)]
  exact congrArg _ (s.raise_of_ne_divisionByZero nofun)

/-- Settles O14: an instruction divides by zero, which raises that error, or leaves the latch as it was. -/
theorem onlyDivisionRaisesInExecution : Obligations.OnlyDivisionRaisesInExecution := by
  intro i s t h hne
  obtain rfl := exec_next_iff.mp h
  rcases effect_control i s with ⟨hzero, he⟩ | ⟨hsame, -⟩
  · exact ⟨by rw [he, State.raise_fault], hzero⟩
  · exact absurd hsame hne

/-- Settles O23, by induction on the fuel: a stopped machine stays as it is under both, and one that is not stopped takes
the same cycle under both. -/
theorem runIsRepeatedStep : Obligations.RunIsRepeatedStep := by
  intro k
  induction k with
  | zero => exact fun s => (run_zero s).symm
  | succ k ih =>
    intro s
    cases hs : s.stopped with
    | true => exact (runFor_of_stopped hs _).trans (run_of_stopped hs _).symm
    | false =>
      obtain ⟨t, ht⟩ := exists_step_next s
      rw [runFor_succ_of_next hs ht, run_succ_of_next ht, ih]

/-- Settles O28: the fetch window after ST lies within memory, and each of its three reads is a read after a store. -/
theorem storeIsSeenByNextFetch : Obligations.StoreIsSeenByNextFetch := by
  intro a b s hpc
  have hwindow : ((s.store8 (s.reg a) (s.reg b)).advance 3).pc ≤ 253 := Nat.add_le_add_right hpc 3
  exact ⟨_, exec_st a b s, rfl, _, State.fetch_ok hwindow, s.store8_mem_read .., s.store8_mem_read ..,
    s.store8_mem_read ..⟩

end Sys2Proof
end

section
/-! PROOFS. What each ALU operation gives back, as a number modulo 256 or as a vector operation on bits (R131 to R145), and
what the six jump conditions are on the flags that a compare leaves (R146, R181). -/

namespace Sys2Proof.Machine

/-! ### Arithmetic operations, as numbers -/

section Arithmetic
variable (u v : Byte)

theorem aluAdd_toNat : (aluAdd u v).toNat = (u.toNat + v.toNat) % 256 := trunc8_natCast (u.toNat + v.toNat)

/-- A negative difference is 256 more as a byte (R131). -/
theorem aluSub_toNat : (aluSub u v).toNat = (u.toNat + 256 - v.toNat) % 256 := by
  have h : ((aluSub u v).toNat : Int) = ((u.toNat : Int) - v.toNat) % 256 := trunc8_toNat _
  have hv := toNat_lt v
  omega

theorem aluMul_toNat : (aluMul u v).toNat = (u.toNat * v.toNat) % 256 := trunc8_natCast (u.toNat * v.toNat)

/-- A quotient of bytes is a byte, so its truncation is no loss (R136). -/
theorem aluDiv_toNat : (aluDiv u v).toNat = u.toNat / v.toNat := by
  have hlt : u.toNat / v.toNat < 256 := (Nat.div_le_self ..).trans_lt (toNat_lt u)
  exact (trunc8_natCast _).trans (Nat.mod_eq_of_lt hlt)

/-- What the quotient leaves is the remainder, a byte too (R137). -/
theorem aluMod_toNat : (aluMod u v).toNat = u.toNat % v.toNat := by
  have hlt : u.toNat % v.toNat < 256 := (Nat.mod_le ..).trans_lt (toNat_lt u)
  have hrem : (u.toNat : Int) - v.toNat * ((u.toNat / v.toNat : Nat) : Int) = ((u.toNat % v.toNat : Nat) : Int) := by
    rw [Int.natCast_mod, Int.emod_def, Int.natCast_div]
  rw [aluMod, hrem, trunc8_natCast, Nat.mod_eq_of_lt hlt]

theorem aluInc_toNat : (aluInc u).toNat = (u.toNat + 1) % 256 := trunc8_natCast (u.toNat + 1)

theorem aluDec_toNat : (aluDec u).toNat = (u.toNat + 255) % 256 := by
  have h : ((aluDec u).toNat : Int) = ((u.toNat : Int) - 1) % 256 := trunc8_toNat _
  omega

end Arithmetic

/-! ### Complement and shifts, as operations on bits -/

section Bits
variable (u v : Byte)

/-- `255 - u` is the complement of every bit (R143). -/
theorem aluNot_eq : aluNot u = ~~~u := by
  have h : ((aluNot u).toNat : Int) = (255 - (u.toNat : Int)) % 256 := trunc8_toNat _
  have hu := toNat_lt u
  refine BitVec.eq_of_toNat_eq ?_
  rw [BitVec.toNat_not]
  omega

/-- Multiplying by a power of two is a left shift (R144). -/
theorem aluShl_eq : aluShl u v = u <<< v.toNat := by
  refine BitVec.eq_of_toNat_eq ?_
  rw [BitVec.toNat_shiftLeft, Nat.shiftLeft_eq]
  exact trunc8_natCast _

/-- Zeros enter at bit 0 (R144). -/
theorem aluShl_getLsbD {k : Nat} (hk : k < 8) :
    (aluShl u v).getLsbD k = (decide (v.toNat ≤ k) && u.getLsbD (k - v.toNat)) := by
  rw [aluShl_eq, BitVec.getLsbD_shiftLeft]
  simp only [hk, decide_true, Bool.true_and, ← Nat.not_lt, decide_not]

/-- Dividing by a power of two is a logical right shift (R145). -/
theorem aluShr_eq : aluShr u v = u >>> v.toNat := by
  have hlt : u.toNat / 2 ^ v.toNat < 256 := (Nat.div_le_self ..).trans_lt (toNat_lt u)
  refine BitVec.eq_of_toNat_eq ?_
  rw [BitVec.toNat_ushiftRight, Nat.shiftRight_eq_div_pow]
  exact (trunc8_natCast _).trans (Nat.mod_eq_of_lt hlt)

end Bits

/-! ### The FL that an instruction does not use -/

theorem State.setFl_commitQuotient (s : State) (f : Byte) (a b : Reg) (v : Byte) :
    (s.setFl f).commitQuotient a b v = (s.commitQuotient a b v).setFl f := by
  by_cases hb : s.reg b = 0
  · rw [s.commitQuotient_of_zero v hb, (s.setFl f).commitQuotient_of_zero v hb]
    rfl
  · rw [s.commitQuotient_of_ne_zero v hb, (s.setFl f).commitQuotient_of_ne_zero v hb]
    rfl

/-- From another FL an ALU instruction that is not CMP does the same and leaves that FL (R132). -/
theorem effect_setFl {i : Instr} (h : i.isAluButCmp = true) (s : State) (f : Byte) :
    effect i (s.setFl f) = (effect i s).setFl f := by
  cases i with
  | div a b | mod a b => exact s.setFl_commitQuotient f a b _
  | add | sub | mul | and | or | xor | shl | shr | inc | dec | not => rfl
  | _ => cases h

/-! ### The jump conditions after a compare -/

section Compare
variable (fl u v : Byte)

@[simp] theorem flagE_cmpFlags : flagE (cmpFlags fl u v) = decide (u = v) := by
  obtain ⟨hE, -, -⟩ := cmpFlags_getLsbD_low fl u v
  rw [flagE, hE, decide_eq_decide]
  exact BitVec.toNat_inj

@[simp] theorem flagG_cmpFlags : flagG (cmpFlags fl u v) = decide (v < u) := by
  obtain ⟨-, hG, -⟩ := cmpFlags_getLsbD_low fl u v
  exact hG

@[simp] theorem flagL_cmpFlags : flagL (cmpFlags fl u v) = decide (u < v) := by
  obtain ⟨-, -, hL⟩ := cmpFlags_getLsbD_low fl u v
  exact hL

theorem condNe_cmpFlags : condNe (cmpFlags fl u v) = decide (u ≠ v) := by
  rw [condNe, flagE_cmpFlags, decide_not]

theorem condGe_cmpFlags : condGe (cmpFlags fl u v) = decide (v ≤ u) := by
  rw [condGe, flagG_cmpFlags, flagE_cmpFlags, ← Bool.decide_or, decide_eq_decide]
  bv_omega

theorem condLe_cmpFlags : condLe (cmpFlags fl u v) = decide (u ≤ v) := by
  rw [condLe, flagL_cmpFlags, flagE_cmpFlags, ← Bool.decide_or, decide_eq_decide]
  bv_omega

end Compare

/-- A conditional jump in the state a compare leaves: the compare moved pc by 3 and kept the registers (R146, R180). -/
theorem jumpIf_effect_cmp {taken : Bool} {p : Prop} [Decidable p] (h : taken = decide p) (a b c : Reg) (s : State) :
    jumpIf taken c (effect (.cmp a b) s) =
      .next { effect (.cmp a b) s with pc := if p then (s.reg c).toNat else s.pc + 5 } := by
  subst h
  simp [jumpIf_eq, effect]

end Sys2Proof.Machine
end

section
/-! PROOFS. The obligations about the ALU instructions and the jumps after a compare, each assembled from the rules above. -/

namespace Sys2Proof

open Machine

/-- Settles O32. -/
theorem addSubMulResults : Obligations.AddSubMulResults := fun a b s =>
  ⟨⟨_, exec_add a b s, by simp [aluAdd_toNat], rfl, onlyRegs_setReg_advance s a _ 3⟩,
    ⟨_, exec_sub a b s, by simp [aluSub_toNat], rfl, onlyRegs_setReg_advance s a _ 3⟩,
    ⟨_, exec_mul a b s, by simp [aluMul_toNat], rfl, onlyRegs_setReg_advance s a _ 3⟩⟩

/-- Settles O33: with a non-zero divisor both commit their result, and quotient and remainder of the old values satisfy the
division identity. -/
theorem divModResults : Obligations.DivModResults := by
  intro a b s hb
  have hne : (s.reg b).toNat ≠ 0 := fun h0 => hb (BitVec.eq_of_toNat_eq h0)
  have hdiv := (exec_div a b s).trans (if_neg hne)
  have hmod := (exec_mod a b s).trans (if_neg hne)
  refine ⟨_, _, hdiv, hmod, ?_, ?_, ?_, rfl, onlyRegs_setReg_advance s a _ 3, rfl, onlyRegs_setReg_advance s a _ 3⟩
  · simp [aluDiv_toNat]
  · simp [aluMod_toNat, Nat.mod_lt _ (Nat.pos_of_ne_zero hne)]
  · simp [aluDiv_toNat, aluMod_toNat, Nat.div_add_mod]

/-- Settles O34. -/
theorem incDecResults : Obligations.IncDecResults := fun a s =>
  ⟨⟨_, exec_inc a s, by simp [aluInc_toNat], rfl, onlyRegs_setReg_advance s a _ 2⟩,
    ⟨_, exec_dec a s, by simp [aluDec_toNat], rfl, onlyRegs_setReg_advance s a _ 2⟩⟩

/-- Settles O35. -/
theorem bitwiseResults : Obligations.BitwiseResults := fun a b s =>
  ⟨⟨_, exec_and a b s, fun k _ => by simp [aluAnd], rfl, onlyRegs_setReg_advance s a _ 3⟩,
    ⟨_, exec_or a b s, fun k _ => by simp [aluOr], rfl, onlyRegs_setReg_advance s a _ 3⟩,
    ⟨_, exec_xor a b s, fun k _ => by simp [aluXor], rfl, onlyRegs_setReg_advance s a _ 3⟩,
    ⟨_, exec_not a s, fun k hk => by simp [aluNot_eq, hk], rfl, onlyRegs_setReg_advance s a _ 2⟩⟩

/-- Settles O36: the operations are the shifts of a bit vector by the number in the source byte. -/
theorem shiftResults : Obligations.ShiftResults := by
  refine fun a b s =>
    ⟨⟨_, exec_shl a b s, fun k hk => ?_, fun h8 => ?_, rfl, onlyRegs_setReg_advance s a _ 3⟩,
      ⟨_, exec_shr a b s, fun k _ => ?_, fun h8 => ?_, rfl, onlyRegs_setReg_advance s a _ 3⟩⟩
  · simp only [State.advance_reg, State.reg_setReg, if_true, aluShl_getLsbD _ _ hk]
  · simp [aluShl_eq, BitVec.shiftLeft_eq_zero h8]
  · simp [aluShr_eq, Nat.add_comm]
  · simp [aluShr_eq, BitVec.ushiftRight_eq_zero h8]

/-- Settles O37. -/
theorem aluButCmpIgnoresFlags : Obligations.AluButCmpIgnoresFlags := by
  intro i s h
  refine ⟨_, exec_eq_effect i s, effect_fl i s ?_ ?_, fun f => ?_⟩
  · rintro a b rfl
    cases h
  · rintro rfl
    cases h
  · exact (exec_eq_effect i (s.setFl f)).trans (congrArg _ (effect_setFl h s f))

/-- Settles O47: each jump's condition on the flags that CMP leaves is the order of the compared values. -/
theorem jumpsAfterCompare : Obligations.JumpsAfterCompare := by
  intro a b c s t h
  obtain rfl := exec_next_iff.mp h
  exact ⟨jumpIf_effect_cmp (flagE_cmpFlags ..) a b c s, jumpIf_effect_cmp (condNe_cmpFlags ..) a b c s,
    jumpIf_effect_cmp (flagG_cmpFlags ..) a b c s, jumpIf_effect_cmp (condGe_cmpFlags ..) a b c s,
    jumpIf_effect_cmp (flagL_cmpFlags ..) a b c s, jumpIf_effect_cmp (condLe_cmpFlags ..) a b c s⟩

end Sys2Proof
end

section
/-! PROOFS. What an instruction leaves in memory (R53), and ST's part of it (R164). -/

namespace Sys2Proof.Machine

/-- A byte that the instruction does not store to keeps its value (R53). -/
theorem effect_mem_read_of_not_storesTo {i : Instr} {s : State} {x : Nat}
    (h : ∀ addr, i.storesTo s = some addr → x ≠ addr.toNat) : (effect i s).mem.read x = s.mem.read x := by
  rcases effect_mem i s with he | ⟨addr, v, haddr, he⟩
  · rw [he]
  · rw [he, s.mem.read_write_other v (h addr haddr)]

/-- After a store every byte but the stored one is as before (R51). -/
theorem sameMemBut_store8 (s : State) (addr v : Byte) : SameMemBut s (s.store8 addr v) addr :=
  fun _ hx => s.mem.read_write_other v hx

end Sys2Proof.Machine

namespace Sys2Proof

open Machine

/-- Settles O29. -/
theorem memoryFrame : Obligations.MemoryFrame := by
  intro i s t h x hx
  rw [exec_next_iff.mp h]
  exact effect_mem_read_of_not_storesTo hx

/-- Settles O41: ST stores a byte and moves on, and moving on changes pc alone. -/
theorem storeResult : Obligations.StoreResult := fun a b s =>
  ⟨_, exec_st a b s, s.mem.read_write_same .., sameMemBut_store8 s (s.ea a) (s.reg b), rfl, fun _ _ => rfl, rfl, rfl, rfl,
    rfl⟩

end Sys2Proof
end

section
/-! PROOFS. The six jump tests as masks of FL (R181), the return address of a CALL (R189), and the bytes that a push or any
other instruction leaves in memory (R53, R160). -/

namespace Sys2Proof.Machine

/-! ### Masks of FL -/

section Mask
variable (fl : Byte)

/-- A one-bit mask tests its bit. -/
theorem and_twoPow_ne_zero_iff {k : Nat} (hk : k < 8) : fl &&& BitVec.twoPow 8 k ≠ 0 ↔ fl.getLsbD k = true := by
  have hne : BitVec.twoPow 8 k ≠ 0 := fun h0 => by
    simpa [hk] using congrArg (·.getLsbD k) h0
  rw [BitVec.and_twoPow]
  by_cases hbit : fl.getLsbD k
  · rw [if_pos hbit]
    exact iff_of_true hne hbit
  · rw [if_neg hbit]
    exact iff_of_false (not_not.mpr rfl) hbit

/-- A mask of two parts tests whether either part is met. -/
theorem and_or_ne_zero_iff (m n : Byte) : fl &&& (m ||| n) ≠ 0 ↔ fl &&& m ≠ 0 ∨ fl &&& n ≠ 0 := by
  have hdistrib : fl &&& (m ||| n) = fl &&& m ||| fl &&& n := BitVec.and_or_distrib_left
  rw [hdistrib]
  exact BitVec.or_eq_zero_iff.not.trans not_and_or

theorem flagE_eq_mask : flagE fl = decide (fl &&& 0b001#8 ≠ 0) := by
  rw [flagE, Bool.eq_iff_iff, decide_eq_true_iff]
  exact (and_twoPow_ne_zero_iff fl (k := 0) (by decide)).symm

theorem flagG_eq_mask : flagG fl = decide (fl &&& 0b010#8 ≠ 0) := by
  rw [flagG, Bool.eq_iff_iff, decide_eq_true_iff]
  exact (and_twoPow_ne_zero_iff fl (k := 1) (by decide)).symm

theorem flagL_eq_mask : flagL fl = decide (fl &&& 0b100#8 ≠ 0) := by
  rw [flagL, Bool.eq_iff_iff, decide_eq_true_iff]
  exact (and_twoPow_ne_zero_iff fl (k := 2) (by decide)).symm

theorem condNe_eq_mask : condNe fl = decide (fl &&& 0b001#8 = 0) := by
  rw [condNe, flagE_eq_mask, ← decide_not, decide_eq_decide, not_ne_iff]

theorem condGe_eq_mask : condGe fl = decide (fl &&& 0b011#8 ≠ 0) := by
  rw [condGe, flagG_eq_mask, flagE_eq_mask, ← Bool.decide_or, decide_eq_decide]
  exact (and_or_ne_zero_iff fl 0b010 0b001).symm

theorem condLe_eq_mask : condLe fl = decide (fl &&& 0b101#8 ≠ 0) := by
  rw [condLe, flagL_eq_mask, flagE_eq_mask, ← Bool.decide_or, decide_eq_decide]
  exact (and_or_ne_zero_iff fl 0b100 0b001).symm

end Mask

/-- A conditional jump whose test decides `p` moves pc by `p`, and moves nothing else (R180). -/
theorem jumpIf_of_eq_decide {taken : Bool} {p : Prop} [Decidable p] (h : taken = decide p) (a : Reg) (s : State) :
    jumpIf taken a s = .next { s with pc := if p then (s.reg a).toNat else s.pc + 2 } := by
  subst h
  simp [jumpIf_eq]

/-! ### CALL and RET -/

/-- Within the fetch window the address after the operand of a CALL is a byte (R189). -/
theorem State.returnAddr_toNat {s : State} (h : s.pc ≤ 253) : s.returnAddr.toNat = s.pc + 2 := by
  have hlt : s.pc + 2 < 256 := by omega
  exact (trunc8_natCast (s.pc + 2)).trans (Nat.mod_eq_of_lt hlt)

/-- The pushed byte is the one at the new stack pointer (R160). -/
theorem State.push_mem_read_pushAddr (s : State) (v : Byte) : (s.push v).mem.read s.pushAddr.toNat = v :=
  s.mem.read_write_same ..

/-- An instruction whose one store is at `addr` keeps every other byte (R53). -/
theorem sameMemBut_effect {i : Instr} {s : State} {addr : Byte} (h : i.storesTo s = some addr) :
    SameMemBut s (effect i s) addr := by
  refine fun x hx => effect_mem_read_of_not_storesTo fun addr' h' => ?_
  rwa [← Option.some.inj (h.symm.trans h')]

end Sys2Proof.Machine
end

section
/-! PROOFS. The obligations about the jumps, CALL and RET, each assembled from the rules above. -/

namespace Sys2Proof

open Machine

/-- Settles O45: a jump to pc itself puts pc where it was. -/
theorem jumpTakesRegisterAsTarget : Obligations.JumpTakesRegisterAsTarget := by
  refine fun a s => ⟨exec_jmp a s, fun hself => ?_⟩
  rw [exec_jmp, State.jumpTo, hself]

/-- Settles O46: each jump's test is a mask of FL. -/
theorem conditionalJumpTests : Obligations.ConditionalJumpTests := fun a s =>
  ⟨jumpIf_of_eq_decide (flagE_eq_mask s.fl) a s, jumpIf_of_eq_decide (condNe_eq_mask s.fl) a s,
    jumpIf_of_eq_decide (flagG_eq_mask s.fl) a s, jumpIf_of_eq_decide (condGe_eq_mask s.fl) a s,
    jumpIf_of_eq_decide (flagL_eq_mask s.fl) a s, jumpIf_of_eq_decide (condLe_eq_mask s.fl) a s⟩

/-- Settles O48: CALL is a push of the return address and then a jump, which reads its register after the push. -/
theorem callResult : Obligations.CallResult := by
  intro a s hpc
  refine ⟨_, exec_call a s, rfl, s.pushAddr_toNat, ?_, ?_, sameMemBut_effect (i := .call a) rfl,
    fun _ hr => effect_reg_of_notMem_writes (.call a) s hr, rfl, rfl, rfl, rfl⟩
  · rw [State.jumpTo_mem, State.push_mem_read_pushAddr, State.returnAddr_toNat hpc]
  · rw [State.jumpTo_pc, State.push_reg, apply_ite BitVec.toNat]

/-- Settles O49. -/
theorem returnResult : Obligations.ReturnResult := fun s =>
  ⟨_, exec_ret s, rfl, s.incSp_sp_toNat, fun _ hr => effect_reg_of_notMem_writes .ret s hr, fun _ => rfl, rfl, rfl, rfl,
    rfl⟩

/-- Settles O50: the byte on top is the return address, and incrementing the decremented pointer gives it back. -/
theorem callThenReturnResumes : Obligations.CallThenReturnResumes := by
  intro a s t u hpc hcall hsp hcell
  obtain rfl := exec_next_iff.mp hcall
  have husp : u.sp = s.pushAddr := hsp
  have htop : u.top = s.returnAddr := by
    rw [u.top_eq, hsp]
    exact hcell.trans (s.push_mem_read_pushAddr _)
  refine ⟨_, exec_ret u, ?_, ?_⟩
  · rw [State.popPc_pc, htop, State.returnAddr_toNat hpc]
  · calc u.popPc.sp = trunc8 ((u.sp.toNat : Int) + 1) := u.incSp_sp
      _ = trunc8 ((s.pushAddr.toNat : Int) + 1) := by rw [husp]
      _ = s.sp := trunc8_pushAddr_add_one s

end Sys2Proof
end

section
/-! PROOFS. HLT and NOP (R200, R201): both move pc on by their one byte, and HLT clears the run flag besides. -/

namespace Sys2Proof.Machine

/-- Moving on to the next instruction changes pc alone (R109). -/
theorem onlyRegs_advance (s : State) (n : Nat) : OnlyRegs s (s.advance n) [] :=
  ⟨fun _ _ => State.advance_reg .., fun _ => rfl, rfl, rfl, rfl, rfl⟩

end Sys2Proof.Machine

namespace Sys2Proof

open Machine

/-- Settles O51: HLT is a halt and then the move to the next instruction, NOP is that move alone. -/
theorem haltAndNopResults : Obligations.HaltAndNopResults := fun s =>
  ⟨⟨_, exec_hlt s, s.halt_running, s.halt_fault, rfl, fun _ _ => rfl, fun _ => rfl, s.halt_fl,
      s.halt_out⟩,
    ⟨_, exec_nop s, s.advance_pc 1, onlyRegs_advance s 1⟩⟩

end Sys2Proof
end

section
/-! PROOFS. The errors a cycle latches (60_exceptions.md): the decoder's refusals (R222, R223) set the latch alone, and a zero
divisor stops the machine as well (R225). -/

namespace Sys2Proof.Machine

/-- The decoder does not divide, so none of its refusals touches the run flag (R243). -/
theorem ErrorKind.ofDecode_ne_divisionByZero (e : DecodeError) : ErrorKind.ofDecode e ≠ .divisionByZero := by
  cases e <;> nofun

/-- When the decoder refuses the three bytes at pc, the cycle latches the refusal and changes nothing else (R106, R107,
R229). -/
theorem step_of_decode_error {s : State} {e : DecodeError} (hrun : s.running = true) (hfault : s.fault = none)
    (hpc : s.pc ≤ 253)
    (hdecode : decode ⟨s.mem.read s.pc, s.mem.read (s.pc + 1), s.mem.read (s.pc + 2)⟩ = .error e) :
    step s = .next { s with fault := some (ErrorKind.ofDecode e) } := by
  have hgo : s.stopped = false := State.stopped_eq_false.mpr ⟨hrun, hfault⟩
  have hfront : s.fetchDecode = .error (ErrorKind.ofDecode e) :=
    State.fetchDecode_error.mpr (.inr ⟨hpc, e, hdecode, rfl⟩)
  rw [step_of_error hgo hfront, s.raise_of_ne_divisionByZero (ErrorKind.ofDecode_ne_divisionByZero e)]

/-- A DIV or MOD with a zero divisor raises the error and does nothing else (R136, R137, R225). -/
theorem exec_of_dividesByZero {i : Instr} {s : State} (h : DividesByZero i s) :
    exec i s = .next (s.raise .divisionByZero) := by
  obtain ⟨a, b, rfl | rfl, hb⟩ := h <;> rw [exec_eq_effect] <;> exact congrArg _ (s.commitQuotient_of_zero _ hb)

end Sys2Proof.Machine

namespace Sys2Proof

open Machine

/-- Settles O11: the decoder refuses such a byte, and the cycle latches the refusal. -/
theorem undefinedOpcodeRaises : Obligations.UndefinedOpcodeRaises := fun _ hrun hfault hpc hundef =>
  ⟨_, step_of_decode_error hrun hfault hpc (decode_eq_undefinedOpcode_iff.mpr ⟨rfl, hundef⟩), rfl⟩

/-- Settles O12: the index check is part of decoding, so the cycle latches the refusal that `indexCheckCoversRegisterSlots`
gives before any condition or divisor is read. -/
theorem invalidRegisterIndexRaises : Obligations.InvalidRegisterIndexRaises := by
  intro s op hrun hfault hpc hop
  obtain ⟨hslotA, hslotB, -⟩ :=
    indexCheckCoversRegisterSlots ⟨s.mem.read s.pc, s.mem.read (s.pc + 1), s.mem.read (s.pc + 2)⟩ op hop
  exact ⟨fun hA h8 => step_of_decode_error hrun hfault hpc (hslotA hA h8),
    fun hA hB h8 => step_of_decode_error hrun hfault hpc (hslotB hA hB h8)⟩

/-- Settles O13: raising the error is the whole effect of a zero divisor, and by `effect_control` any other instruction that
changes the run flag is HLT. -/
theorem divisionByZeroHaltsAndLatches : Obligations.DivisionByZeroHaltsAndLatches := by
  refine ⟨fun a b s hb => ⟨exec_of_dividesByZero ⟨a, b, .inl rfl, hb⟩, exec_of_dividesByZero ⟨a, b, .inr rfl, hb⟩⟩,
    fun i s t h hrun hstop => ?_⟩
  obtain rfl := exec_next_iff.mp h
  rcases effect_control i s with ⟨hzero, -⟩ | ⟨-, hkeeps | hhlt⟩
  · exact .inr hzero
  · rw [hkeeps, hrun] at hstop
    cases hstop
  · exact .inl hhlt

/-- Settles O16, by the cases of a step: a stopped machine, a latched error, or an instruction, which has an effect. -/
theorem everyStepAnswersNextState : Obligations.EveryStepAnswersNextState := exists_step_next

end Sys2Proof
end

section
/-! PROOFS. When a machine is stopped (R101), and what a push and a pop leave: POP as the stack's own pop (R166), and a
sequence of pops such as IRET's (R161, R205). -/

namespace Sys2Proof.Machine

/-- A machine is stopped when it is halted or has an error latched (R101). -/
theorem State.stopped_eq_true {s : State} : s.stopped = true ↔ s.running = false ∨ s.fault ≠ none := by
  rw [← Bool.not_eq_false, State.stopped_eq_false, not_and_or, Bool.not_eq_true]

/-! ### One push, one pop -/

/-- A register other than R7 can be written before or after the increment, so POP is the stack's pop and then the move past
its two bytes (R161, R166). -/
theorem exec_pop_of_ne {a : Reg} (h : a ≠ .r7) (s : State) : exec (.pop a) s = .next ((s.popReg a).advance 2) := by
  rw [exec_pop, s.setReg_incSp _ h, State.popReg]

theorem State.popReg_reg_same (s : State) (r : Reg) : (s.popReg r).reg r = s.top := by
  rw [State.popReg_reg, if_pos rfl]

/-- POP changes its register, R7 and pc (R166). -/
theorem onlyRegs_effect_pop (a : Reg) (s : State) : OnlyRegs s (effect (.pop a) s) [a, .r7] :=
  ⟨fun _ hr => effect_reg_of_notMem_writes (.pop a) s hr, fun _ => rfl, rfl, rfl, rfl, rfl⟩

/-! ### A sequence of pops

The rules are about any list of registers and any state; unfolding IRET's nine nested pops would copy the state below each
of them twice. -/

/-- The byte `k` cells above the top of the stack, modulo 256 (R161). -/
def State.stackByte (s : State) (k : Nat) : Byte := s.mem.read ((s.sp.toNat + k) % 256)

/-- Pop into each register of a list, the first one first. `exec_iret_eq_popRegs` ties it to IRET. -/
def State.popRegs (s : State) : List Reg → State
  | [] => s
  | r :: rs => (s.popReg r).popRegs rs

/-- The registers IRET restores, in its order (R205). -/
def iretRegs : List Reg := [.r6, .r5, .r4, .r3, .r2, .r1, .r0]

/-- IRET pops the registers, then FL, then pc (R205). -/
theorem exec_iret_eq_popRegs (s : State) : exec .iret s = .next (s.popRegs iretRegs).popFl.popPc := exec_iret s

section Pops
variable (s : State)

theorem State.stackByte_zero : s.stackByte 0 = s.top := by
  rw [State.stackByte, Nat.add_zero, Nat.mod_eq_of_lt (toNat_lt _), State.top_eq]

/-- With the pointer one higher, every stack byte is one nearer to the top (R161). -/
theorem State.incSp_stackByte (k : Nat) : s.incSp.stackByte k = s.stackByte (k + 1) := by
  rw [State.stackByte, State.stackByte, State.incSp_mem, State.incSp_sp_toNat, Nat.mod_add_mod, Nat.add_assoc,
    Nat.add_comm 1]

theorem State.popFl_stackByte (k : Nat) : s.popFl.stackByte k = s.stackByte (k + 1) := s.incSp_stackByte k

theorem State.popReg_stackByte {r : Reg} (h : r ≠ .r7) (k : Nat) :
    (s.popReg r).stackByte k = s.stackByte (k + 1) := by
  rw [← State.incSp_stackByte, State.stackByte, State.stackByte, s.popReg_sp h]
  rfl

@[simp] theorem State.popRegs_mem (rs : List Reg) : (s.popRegs rs).mem = s.mem := by
  induction rs generalizing s with
  | nil => rfl
  | cons r rs ih => exact ih (s.popReg r)

theorem State.sameControl_popRegs (rs : List Reg) : SameControl s (s.popRegs rs) := by
  induction rs generalizing s with
  | nil => exact ⟨rfl, rfl, rfl⟩
  | cons r rs ih => exact ih (s.popReg r)

theorem State.popRegs_reg_of_notMem {rs : List Reg} {q : Reg} (hq : q ∉ rs) (h7 : q ≠ .r7) :
    (s.popRegs rs).reg q = s.reg q := by
  induction rs generalizing s with
  | nil => rfl
  | cons r rs ih =>
    obtain ⟨hqr, hqrs⟩ := List.ne_and_not_mem_of_not_mem_cons hq
    rw [State.popRegs, ih (s.popReg r) hqrs, State.popReg_reg, if_neg hqr, if_neg h7]

/-- Pops into registers other than R7 move the stack pointer up by their number, modulo 256 (R161). -/
theorem State.popRegs_sp_toNat {rs : List Reg} (h7 : .r7 ∉ rs) :
    (s.popRegs rs).sp.toNat = (s.sp.toNat + rs.length) % 256 := by
  induction rs generalizing s with
  | nil => exact (Nat.mod_eq_of_lt (toNat_lt _)).symm
  | cons r rs ih =>
    obtain ⟨hr, hrs⟩ := List.ne_and_not_mem_of_not_mem_cons h7
    have hpop : (s.popReg r).sp.toNat = (s.sp.toNat + 1) % 256 := by
      rw [s.popReg_sp hr.symm, ← State.incSp_sp, State.incSp_sp_toNat]
    rw [State.popRegs, ih (s.popReg r) hrs, hpop, Nat.mod_add_mod, List.length_cons, Nat.add_assoc, Nat.add_comm 1]

/-- After the pops the stack begins above the popped bytes (R161). -/
theorem State.popRegs_stackByte {rs : List Reg} (h7 : .r7 ∉ rs) (k : Nat) :
    (s.popRegs rs).stackByte k = s.stackByte (rs.length + k) := by
  rw [State.stackByte, State.stackByte, s.popRegs_mem, s.popRegs_sp_toNat h7, Nat.mod_add_mod, Nat.add_assoc]

/-- The register popped as number `k` holds the byte `k` above the old top (R161, R205). -/
theorem State.popRegs_reg_of_getElem? {rs : List Reg} (h7 : .r7 ∉ rs) (hnodup : rs.Nodup) {k : Nat} {q : Reg}
    (hq : rs[k]? = some q) : (s.popRegs rs).reg q = s.stackByte k := by
  induction rs generalizing s k with
  | nil => cases hq
  | cons r rs ih =>
    obtain ⟨hr, h7rs⟩ := List.ne_and_not_mem_of_not_mem_cons h7
    obtain ⟨hrnot, hnoduprs⟩ := List.nodup_cons.mp hnodup
    cases k with
    | zero =>
      obtain rfl : r = q := Option.some.inj hq
      rw [State.popRegs, State.popRegs_reg_of_notMem _ hrnot hr.symm, State.popReg_reg_same, State.stackByte_zero]
    | succ k => rw [State.popRegs, ih _ h7rs hnoduprs hq, s.popReg_stackByte hr.symm]

/-- Popping FL and pc leaves every register but R7 (R161). -/
theorem State.popFl_popPc_reg_of_ne {q : Reg} (h : q ≠ .r7) : s.popFl.popPc.reg q = s.reg q := by simp [h]

/-- Popping FL and pc touches none of the run flag, the error latch and the output stream. -/
theorem State.sameControl_popFl_popPc {t : State} (h : SameControl t s) : SameControl t s.popFl.popPc := h

theorem State.popFl_popPc_sp_toNat : s.popFl.popPc.sp.toNat = (s.sp.toNat + 2) % 256 := by
  show s.incSp.incSp.sp.toNat = _
  rw [State.incSp_sp_toNat, State.incSp_sp_toNat, Nat.mod_add_mod]
end Pops

end Sys2Proof.Machine

namespace Sys2Proof

open Machine

/-- Settles O9: a stopped machine keeps its state under a step, and so under any number of them. -/
theorem stoppedMachineStaysAsItIs : Obligations.StoppedMachineStaysAsItIs := fun _ k h =>
  have hstop := State.stopped_eq_true.mpr h
  ⟨step_of_stopped hstop, run_of_stopped hstop k⟩

/-- Settles O15: the step raised the error, and raising it is exactly this update. -/
theorem errorsArePrecise : Obligations.ErrorsArePrecise := fun _ _ _ => eq_raise_of_step_latches

/-- Settles O42: PUSH is a push of the register as it is after the decrement. -/
theorem pushResult : Obligations.PushResult := by
  intro a s
  refine ⟨_, exec_push a s, rfl, s.pushAddr_toNat, ?_, sameMemBut_effect (i := .push a) rfl,
    fun _ hr => effect_reg_of_notMem_writes (.push a) s hr, rfl, rfl, rfl, rfl, rfl⟩
  rw [State.advance_mem, State.push_mem_read_pushAddr, State.decSp_reg]

/-- Settles O43: R7 is written before it is incremented, any other register keeps the popped byte. -/
theorem popResult : Obligations.PopResult := by
  intro a s
  refine ⟨_, exec_eq_effect (.pop a) s, fun h => ?_, fun h => ?_, rfl, onlyRegs_effect_pop a s⟩
  · rw [← exec_next_iff.mp (exec_pop_of_ne h s)]
    refine ⟨s.popReg_reg_same a, ?_⟩
    calc ((s.popReg a).advance 2).sp.toNat = s.incSp.sp.toNat := congrArg _ (s.popReg_sp h)
      _ = (s.sp.toNat + 1) % 256 := s.incSp_sp_toNat
  · subst h
    exact (s.setReg .r7 s.top).incSp_sp_toNat

/-- Settles O44: the byte on top is the pushed register, and incrementing the decremented pointer gives it back. -/
theorem pushThenPopRestores : Obligations.PushThenPopRestores := by
  intro a s t u ha hpush hsp hcell
  obtain rfl := exec_next_iff.mp hpush
  have husp : u.sp = s.pushAddr := hsp
  have htop : u.top = s.reg a := by
    rw [u.top_eq, hsp]
    refine (hcell.trans (s.push_mem_read_pushAddr _)).trans ?_
    rw [State.decSp_reg, if_neg ha]
  refine ⟨_, exec_pop_of_ne ha u, (u.popReg_reg_same a).trans htop, ?_⟩
  calc (u.popReg a).sp = trunc8 ((u.sp.toNat : Int) + 1) := u.popReg_sp ha
    _ = trunc8 ((s.pushAddr.toNat : Int) + 1) := by rw [husp]
    _ = s.sp := trunc8_pushAddr_add_one s

/-- Settles O55: seven pops into registers other than R7, then FL and pc from the next two bytes. -/
theorem interruptReturnRestoresFrame : Obligations.InterruptReturnRestoresFrame := by
  intro s
  have h7 : .r7 ∉ iretRegs := by decide
  have hreg {k : Nat} {q : Reg} (hq : iretRegs[k]? = some q) :
      (s.popRegs iretRegs).popFl.popPc.reg q = s.stackByte k := by
    have hne : q ≠ .r7 := fun h => h7 (h ▸ List.mem_of_getElem? hq)
    rw [State.popFl_popPc_reg_of_ne _ hne, s.popRegs_reg_of_getElem? h7 (by decide) hq]
  have hfl : (s.popRegs iretRegs).popFl.popPc.fl = s.stackByte 7 := by
    rw [State.popPc_fl, State.popFl_fl, ← State.stackByte_zero, s.popRegs_stackByte h7]
    rfl
  have hpc : (s.popRegs iretRegs).popFl.popPc.pc = (s.stackByte 8).toNat := by
    rw [State.popPc_pc, ← State.stackByte_zero, State.popFl_stackByte, s.popRegs_stackByte h7]
    rfl
  have hsp : (s.popRegs iretRegs).popFl.popPc.sp.toNat = (s.sp.toNat + 9) % 256 := by
    rw [State.popFl_popPc_sp_toNat, s.popRegs_sp_toNat h7, Nat.mod_add_mod]
    rfl
  have hmem : SameMem s (s.popRegs iretRegs).popFl.popPc := fun x => by
    rw [State.popPc_mem, State.popFl_mem, State.popRegs_mem]
  exact ⟨_, exec_iret_eq_popRegs s, (hreg (k := 0) rfl).trans s.stackByte_zero, hreg (k := 1) rfl, hreg (k := 2) rfl,
    hreg (k := 3) rfl, hreg (k := 4) rfl, hreg (k := 5) rfl, hreg (k := 6) rfl, hfl, hpc, hsp, hmem,
    (s.popRegs iretRegs).sameControl_popFl_popPc (s.sameControl_popRegs iretRegs)⟩

/-- Settles O7: seven words run through the decoder, and the undefined opcode and the bad register index are refused. -/
theorem listedWordsDecode : Obligations.ListedWordsDecode :=
  ⟨rfl, rfl, rfl, rfl, rfl, rfl, rfl, rfl, rfl⟩

end Sys2Proof
end
